-- ==== Sys2Proof/Word.lean ====
section
/-!
DEFINITION. The words of the vf128 numeric block (00_scope.md section 4 and R2, R3; 10_state.md section 1).

Values are bit vectors: bit 0 is the least significant bit (R2), arithmetic wraps modulo the width (R3).
Counts, lengths and buffer offsets in a rule are natural numbers.
-/

namespace Sys2Proof

/-- One element of BUF (20_memory.md R51). -/
abbrev Byte := BitVec 8

/-- A value of the block: the width of every operand and result register, of CAP and of OFF (10_state.md R20, R22, R31). -/
abbrev Word := BitVec 64

/-- A command word, and the width of CMD and ST (10_state.md R24; 30_encoding.md R80). -/
abbrev CmdWord := BitVec 32

end Sys2Proof
end

