-- ==== Sys2Proof/Syntax.lean ====
section
/-!
DEFINITION. The commands of VNB-1: one constructor per row of spec/opcode_table.json (30_encoding.md R86).
-/

namespace Sys2Proof

/-- A command. Its operands are the fixed registers A, B and C (30_encoding.md R80); the only immediate is the
byte count `n` of the six commands that take one (R82). -/
inductive Instr where
  /-- Decompose a binary64 pattern (R104). -/
  | fdec64
  /-- Recompose a binary64 pattern (R105). -/
  | frec64
  /-- Decompose a binary32 pattern (R106). -/
  | fdec32
  /-- Recompose a binary32 pattern (R107). -/
  | frec32
  /-- Minimal unsigned byte length (R124). -/
  | mlenu
  /-- Minimal signed byte length (R125). -/
  | mlens
  /-- Write n bytes big-endian (R126). -/
  | wrbe (n : Nat)
  /-- Write n bytes little-endian (R127). -/
  | wrle (n : Nat)
  /-- Write minimal unsigned big-endian (R128). -/
  | wrbemu
  /-- Write minimal signed big-endian (R129). -/
  | wrbems
  /-- Write minimal unsigned little-endian (R130). -/
  | wrlemu
  /-- Write minimal signed little-endian (R131). -/
  | wrlems
  /-- Read n bytes big-endian, zero-extended (R132). -/
  | rdbeu (n : Nat)
  /-- Read n bytes big-endian, sign-extended (R133). -/
  | rdbes (n : Nat)
  /-- Read n bytes little-endian, zero-extended (R134). -/
  | rdleu (n : Nat)
  /-- Read n bytes little-endian, sign-extended (R135). -/
  | rdles (n : Nat)
  /-- LEB128 encoded length (R163). -/
  | leblen
  /-- LEB128 encode and write (R164). -/
  | lebwr
  /-- LEB128 read and decode (R165). -/
  | lebrd
  /-- VLU encoded length (R183). -/
  | vlulen
  /-- VLU encode and write (R184). -/
  | vluwr
  /-- VLU read and decode (R185). -/
  | vlurd
  deriving DecidableEq, Repr

/-- The command's byte count n, 0 for a command that takes none (30_encoding.md R80: then N must be 0). -/
def Instr.count : Instr → Nat
  | .fdec64 => 0
  | .frec64 => 0
  | .fdec32 => 0
  | .frec32 => 0
  | .mlenu => 0
  | .mlens => 0
  | .wrbe n => n
  | .wrle n => n
  | .wrbemu => 0
  | .wrbems => 0
  | .wrlemu => 0
  | .wrlems => 0
  | .rdbeu n => n
  | .rdbes n => n
  | .rdleu n => n
  | .rdles n => n
  | .leblen => 0
  | .lebwr => 0
  | .lebrd => 0
  | .vlulen => 0
  | .vluwr => 0
  | .vlurd => 0

end Sys2Proof
end

