-- ==== Sys2Proof/WellFormed.lean ====
section
/-!
DEFINITION. Which terms of `Instr` are commands: the byte count fits the four bits of N (30_encoding.md R82, R89).
A count of 9 to 15 is well-formed: it decodes, and its own rule answers InvalidLength.
-/

namespace Sys2Proof

/-- The byte count is 0 to 15, the values of the field N (30_encoding.md R82). -/
def Instr.wellFormed (i : Instr) : Bool := decide (i.count ≤ 15)

end Sys2Proof
end

