-- ==== Sys2Proof/Decode.lean ====
section
/-!
DEFINITION. The command word: decoder and encoder (30_encoding.md R80 to R88).

A command word is one 32-bit number moved whole (20_memory.md R53: the register space has no byte order), so the
decoder takes that number, not bytes.
-/

namespace Sys2Proof

/-- Why a word is no command. Each raises IllegalCommand (30_encoding.md R87). -/
inductive DecodeError where
  /-- RSV is not 0 (R83). -/
  | reservedBits
  /-- OPC is none of the assigned values (R81). -/
  | unassignedOpcode
  /-- N is not 0 and the command takes no byte count (R82). -/
  | unexpectedCount
  deriving DecidableEq, Repr

/-- What an assigned operation code stands for: a command without byte count, or one for each n. -/
inductive OpcodeEntry where
  | plain (i : Instr)
  | counted (i : Nat → Instr)

/-- OPC = CMD[7:0] (10_state.md R24). -/
def opcOf (w : CmdWord) : BitVec 8 := w.extractLsb' 0 8

/-- N = CMD[11:8], as the unsigned number it is assembled to (30_encoding.md R82). -/
def countOf (w : CmdWord) : Nat := (w.extractLsb' 8 4).toNat

/-- RSV = CMD[31:12] (10_state.md R24). -/
def rsvOf (w : CmdWord) : BitVec 20 := w.extractLsb' 12 20

/-- The opcode map (30_encoding.md R86); `none` for every other value of OPC (R81). -/
def opcodeMap (opc : BitVec 8) : Option OpcodeEntry :=
  match opc.toNat with
  | 0x10 => some (.plain .fdec64)
  | 0x11 => some (.plain .frec64)
  | 0x12 => some (.plain .fdec32)
  | 0x13 => some (.plain .frec32)
  | 0x20 => some (.plain .mlenu)
  | 0x21 => some (.plain .mlens)
  | 0x22 => some (.counted .wrbe)
  | 0x23 => some (.counted .wrle)
  | 0x24 => some (.plain .wrbemu)
  | 0x25 => some (.plain .wrbems)
  | 0x26 => some (.plain .wrlemu)
  | 0x27 => some (.plain .wrlems)
  | 0x28 => some (.counted .rdbeu)
  | 0x29 => some (.counted .rdbes)
  | 0x2A => some (.counted .rdleu)
  | 0x2B => some (.counted .rdles)
  | 0x30 => some (.plain .leblen)
  | 0x31 => some (.plain .lebwr)
  | 0x32 => some (.plain .lebrd)
  | 0x38 => some (.plain .vlulen)
  | 0x39 => some (.plain .vluwr)
  | 0x3A => some (.plain .vlurd)
  | _ => none

/-- The decode checks of 30_encoding.md R84, in the order shown there. -/
def decode (w : CmdWord) : Except DecodeError Instr :=
  if rsvOf w ≠ 0 then .error .reservedBits
  else match opcodeMap (opcOf w) with
    | none => .error .unassignedOpcode
    | some (.counted i) => .ok (i (countOf w))
    | some (.plain i) => if countOf w ≠ 0 then .error .unexpectedCount else .ok i

/-- The operation code of a command (30_encoding.md R86). -/
def Instr.opcode : Instr → BitVec 8
  | .fdec64 => 0x10
  | .frec64 => 0x11
  | .fdec32 => 0x12
  | .frec32 => 0x13
  | .mlenu => 0x20
  | .mlens => 0x21
  | .wrbe _ => 0x22
  | .wrle _ => 0x23
  | .wrbemu => 0x24
  | .wrbems => 0x25
  | .wrlemu => 0x26
  | .wrlems => 0x27
  | .rdbeu _ => 0x28
  | .rdbes _ => 0x29
  | .rdleu _ => 0x2A
  | .rdles _ => 0x2B
  | .leblen => 0x30
  | .lebwr => 0x31
  | .lebrd => 0x32
  | .vlulen => 0x38
  | .vluwr => 0x39
  | .vlurd => 0x3A

/-- The command word `zext_32(OPC) | (n << 8)` (30_encoding.md R86). -/
def encode (i : Instr) : CmdWord := i.opcode.setWidth 32 ||| (BitVec.ofNat 32 i.count <<< 8)

/-- The command of a row of spec/opcode_table.json, whose `nbits` bits are `w`, bit 0 the least significant. -/
def decodeTableWord (nbits w : Nat) : Option Instr :=
  match decode (BitVec.ofNat 32 (w % 2 ^ nbits)) with
  | .ok i => some i
  | .error _ => none

end Sys2Proof
end

