-- ==== Sys2Proof/Config.lean ====
section
/-!
DEFINITION. What is fixed for a run but not by the spec, and the implementation parameters the spec does fix
(00_scope.md section 4).

The three OPEN values are opaque: nothing in Lean can evaluate them, so what is proved holds for every value.
-/

namespace Sys2Proof

/-- `CAP`, the cursor's capacity in bytes at reset: OPEN, any value in 0 to 2^64 - 1, fixed for a run
(00_scope.md section 4, 92_eei_decisions.md D25). Log 2. -/
opaque Config.cap : Word

/-- `VNB_BASE`, the base address of the register space in the host's address map: OPEN
(20_memory.md R52, 92_eei_decisions.md D27). Log 4. -/
opaque Config.vnbBase : Word

/-- `BUF_INIT`: the byte at each offset of BUF that nothing has written, a draw the model takes as a free input
(70_reset_and_hazards.md R231, 93_implementation_defined.md I17). Log 3. -/
opaque Config.bufInit : Nat → Byte

/-- The field widths and the bias of an IEEE-754 format. No command reads the bias. -/
structure FloatFormat where
  /-- Width of the biased exponent. -/
  expWidth : Nat
  /-- Width of the mantissa. -/
  manWidth : Nat
  /-- The exponent's bias, part of the data model FloatBits (40_ieee754.md R100, R101). -/
  bias : Nat
  deriving DecidableEq, Repr

/-- binary64 (40_ieee754.md R100). -/
def Config.f64 : FloatFormat := { expWidth := 11, manWidth := 52, bias := 1023 }

/-- binary32 (40_ieee754.md R101). -/
def Config.f32 : FloatFormat := { expWidth := 8, manWidth := 23, bias := 127 }

end Sys2Proof
end

