-- ==== Sys2Proof/Machine/State.lean ====
section
/-!
DEFINITION. The state of the vf128 numeric block, its cursor and the host's port (10_state.md section 1), the
error kinds of a command, and the reasons a step of the model can stop.
-/

namespace Sys2Proof.Machine

/-- The ways a command ends in error (60_exceptions.md R200). None of them stops the machine. -/
inductive ErrorKind where
  /-- The cursor lacked capacity for a read or write. -/
  | insufficientBuffer
  /-- A computed or decoded byte length fell outside the legal range. -/
  | invalidLength
  /-- Recognized but intentionally unimplemented; no command of VNB-1 raises it (60_exceptions.md R203). -/
  | unsupportedForm
  /-- An exponent or mantissa does not fit the field widths of the target float. -/
  | overflow
  /-- The command word matches no assigned encoding. -/
  | illegalCommand
  deriving DecidableEq, Repr

/-- One action of the host, or of the platform around the block. The host's register accesses, its cursor
operations, its direct buffer accesses and the commands form a single total order (20_memory.md R69). -/
inductive HostAction where
  /-- Write `data` to the register at block offset `offset`, an access of `bits` bits (20_memory.md R52, R53);
  a 32-bit access moves `data[31:0]`. A write to CMD issues a command. -/
  | regWrite (offset : Word) (bits : Nat) (data : Word)
  /-- Read the register at block offset `offset` (20_memory.md R52, R53). -/
  | regRead (offset : Word) (bits : Nat)
  /-- The write at an address of the host's address map, where the block stands at `VNB_BASE` (20_memory.md R52). -/
  | busWrite (addr : Word) (bits : Nat) (data : Word)
  /-- The read at an address of the host's address map. -/
  | busRead (addr : Word) (bits : Nat)
  /-- The cursor's `reset()` (20_memory.md R66). -/
  | cursorReset
  /-- The cursor's `seek(o)` (20_memory.md R67). -/
  | seek (o : Word)
  /-- The cursor's `offset()` (20_memory.md R65). -/
  | offset
  /-- The cursor's `remaining()` (20_memory.md R65). -/
  | remaining
  /-- Write the byte BUF[o] directly (20_memory.md R68). -/
  | poke (o : Word) (b : Byte)
  /-- Read the byte BUF[o] directly (20_memory.md R68). -/
  | peek (o : Word)
  /-- Reset of the block, a step of its own between commands (70_reset_and_hazards.md R230, R231, R233). -/
  | vnbReset
  /-- The host writes `w` to CMD, and while that command runs an agent other than the VNB reads or writes BUF or OFF
  (70_reset_and_hazards.md R239). -/
  | contendedCommand (w : CmdWord)
  deriving DecidableEq, Repr

/-- What the host's last action gave back to it (the model's own; log 5). -/
inductive HostReply where
  /-- No action has run. -/
  | none
  /-- The action completed and gives nothing back. -/
  | done
  /-- The action failed and changed nothing (`seek` beyond CAP, 20_memory.md R67). -/
  | failed
  /-- The value of a 64-bit register, or of `offset()`. -/
  | word (v : Word)
  /-- The value of a 32-bit register. -/
  | half (v : BitVec 32)
  /-- A byte of BUF. -/
  | byte (b : Byte)
  /-- The span `remaining()` returns: where it starts and how many bytes it has. -/
  | span (start len : Word)
  deriving DecidableEq, Repr

/-- The bytes of BUF that have been written: pairs of an offset and a byte, offsets strictly rising. An offset not
listed has never been written and holds the draw `Config.bufInit` (log 3). -/
abbrev Memory := List Host.Cell

/-- The machine. The first twelve fields are the spec's (10_state.md section 1); `queue` and `reply` are the
model's own, the host's side of the port (logs 1 and 5). -/
structure State where
  /-- A, the primary operand (10_state.md R20). -/
  a : Word
  /-- B, the exponent of a recomposition (10_state.md R20). -/
  b : Word
  /-- C, the mantissa of a recomposition (10_state.md R20). -/
  c : Word
  /-- CMD, the last word written to it (10_state.md R24). -/
  cmd : CmdWord
  /-- ST, the status of the last command (10_state.md R25 to R27). -/
  st : BitVec 32
  /-- R0 (10_state.md R22). -/
  r0 : Word
  /-- R1 (10_state.md R22). -/
  r1 : Word
  /-- R2 (10_state.md R22). -/
  r2 : Word
  /-- R3 (10_state.md R22). -/
  r3 : Word
  /-- CAP, the cursor's capacity (10_state.md R28, R31). -/
  cap : Word
  /-- OFF, the one offset for reading and writing (10_state.md R28, R30, R31). -/
  off : Word
  /-- BUF, the bytes written so far (10_state.md R28). -/
  buf : Memory
  /-- The host's actions still to come, the next one first (the model's own; log 1). -/
  queue : List HostAction
  /-- What the host's last action gave back (the model's own; log 5). -/
  reply : HostReply
  deriving DecidableEq, Repr

/-- The machine right after reset (70_reset_and_hazards.md R230, R231): every register 0, OFF 0, CAP the run's
parameter, no byte of BUF written, and no host action pending. -/
def State.reset : State where
  a := 0
  b := 0
  c := 0
  cmd := 0
  st := 0
  r0 := 0
  r1 := 0
  r2 := 0
  r3 := 0
  cap := Config.cap
  off := 0
  buf := []
  queue := []
  reply := .none

/-- Why a step stops with a fault. No command raises one. -/
inductive Fault where
  /-- Raised by a direct host access to BUF[o] with o >= CAP, an offset that does not exist (20_memory.md R51).
  Safe: the model stops where the spec gives nothing. Log 7. -/
  | bufferOffset (o : Word)
  /-- Raised when another agent touches the cursor while a command runs; the spec has a model treat it as a fault
  (70_reset_and_hazards.md R239, 20_memory.md R72). Safe. Log 8. -/
  | sharedCursor
  deriving DecidableEq, Repr

/-- Why a step has no meaning. No command answers with one. -/
inductive Refusal where
  /-- An instruction the model gives no meaning. No arm raises it: all 22 commands are modelled. Safe. -/
  | notModelled (mnemonic : String)
  /-- Raised by a host access to the register space that is no whole-register access; the spec has a model record a
  refusal (20_memory.md R53). Safe. Log 6. -/
  | registerAccess (offset : Word) (bits : Nat)
  deriving DecidableEq, Repr

end Sys2Proof.Machine
end

