-- ==== Sys2Proof/Machine/Flags.lean ====
section
/-!
DEFINITION. The status register's fields and codes (10_state.md R25 to R27, 60_exceptions.md R201) and the
classification of a floating-point pattern (40_ieee754.md R102).
-/

namespace Sys2Proof.Machine

/-- The error code written to ST.ERR (60_exceptions.md R201). -/
def ErrorKind.code : ErrorKind → BitVec 4
  | .insufficientBuffer => 1
  | .invalidLength => 2
  | .unsupportedForm => 3
  | .overflow => 4
  | .illegalCommand => 5

/-- The status word with fields ERR and NB; ST[31:8] is 0 (10_state.md R25 to R27). -/
def packStatus (err nb : BitVec 4) : BitVec 32 := (nb ++ err).setWidth 32

/-- ST.ERR = ST[3:0] (10_state.md R25). -/
def State.err (s : State) : BitVec 4 := s.st.extractLsb' 0 4

/-- ST.NB = ST[7:4] (10_state.md R26). -/
def State.nb (s : State) : BitVec 4 := s.st.extractLsb' 4 4

/-- The classes of a floating-point pattern (40_ieee754.md R102). -/
inductive FloatClass where
  | zero
  | subnormal
  | normal
  | infinity
  | nan
  deriving DecidableEq, Repr

/-- The class code a decomposition writes to R3 (40_ieee754.md R102). -/
def FloatClass.code : FloatClass → Word
  | .zero => 0
  | .subnormal => 1
  | .normal => 2
  | .infinity => 3
  | .nan => 4

/-- `class(e, m)` of a biased exponent and a mantissa (40_ieee754.md R102). The sign does not enter it. -/
def classify {ew mw : Nat} (e : BitVec ew) (m : BitVec mw) : FloatClass :=
  if e = 0 then (if m = 0 then .zero else .subnormal)
  else if e = BitVec.allOnes ew then (if m = 0 then .infinity else .nan)
  else .normal

end Sys2Proof.Machine
end

