-- ==== Sys2Proof/Machine/Operands.lean ====
section
/-!
DEFINITION. The values a rule computes from its operands: bit primitives (00_scope.md R5), bytes and byte orders
(20_memory.md R58), length functions (41_minwidth.md R120, R121), LEB128 groups and VLU words (42_leb128.md R162,
43_vlu.md R180).
-/

namespace Sys2Proof.Machine

/-- The zero bits from bit k - 1 downward, up to the first one bit. -/
def clzBelow (v : Word) : Nat → Nat
  | 0 => 0
  | k + 1 => if v.getLsbD k then 0 else 1 + clzBelow v k

/-- The number of leading zero bits; 64 for 0 (00_scope.md R5). -/
def clz64 (v : Word) : Nat := clzBelow v 64

/-- The zero bits from bit i upward, up to the first one bit, looking at `fuel` bits. -/
def ctzFrom (v : Word) : (fuel i : Nat) → Nat
  | 0, _ => 0
  | fuel + 1, i => if v.getLsbD i then 0 else 1 + ctzFrom v fuel (i + 1)

/-- The number of trailing zero bits; 64 for 0 (00_scope.md R5). -/
def ctz64 (v : Word) : Nat := ctzFrom v 64 0

/-- The position of the highest set bit plus one; 0 for 0 (00_scope.md R5). -/
def bitlen (v : Word) : Nat := 64 - clz64 v

/-- The one bits of a byte from bit i upward, up to the first zero bit, looking at `fuel` bits. -/
def ctoFrom (b : Byte) : (fuel i : Nat) → Nat
  | 0, _ => 0
  | fuel + 1, i => if b.getLsbD i then 1 + ctoFrom b fuel (i + 1) else 0

/-- The number of trailing one bits of a byte, 0 to 8, with `cto8(0xFF) = 8` (00_scope.md R5). Log 10. -/
def cto8 (b : Byte) : Nat := ctoFrom b 8 0

/-- The smallest q with q * d >= a, for d > 0 (00_scope.md R5). -/
def ceilDiv (a d : Nat) : Nat := (a + d - 1) / d

/-- The two byte orders of the minimal-width codec (20_memory.md R58). -/
inductive ByteOrder where
  | be
  | le
  deriving DecidableEq, Repr

/-- Byte k of a value, `v[8k+7 : 8k]` (00_scope.md R2). -/
def byteOf (v : Word) (k : Nat) : Byte := v.extractLsb' (8 * k) 8

/-- Which byte of an n-byte value stands at offset OFF + i (20_memory.md R58). -/
def byteIndex (order : ByteOrder) (n i : Nat) : Nat :=
  match order with
  | .be => n - 1 - i
  | .le => i

/-- The n low-order bytes of v in the order they are stored, from OFF upward (41_minwidth.md R122). -/
def fieldBytes (order : ByteOrder) (n : Nat) (v : Word) : List Byte :=
  (List.range n).map fun i => byteOf v (byteIndex order n i)

/-- `sext_64(u[8n-1 : 0])` (00_scope.md R4, 41_minwidth.md R123). -/
def signExtendBytes (u : Word) (n : Nat) : Word := (u.setWidth (8 * n)).signExtend 64

/-- `minimal_len` (41_minwidth.md R120). -/
def minimalLen (v : Word) : Nat := if v = 0 then 1 else ceilDiv (bitlen v) 8

/-- `minimal_len_signed` (41_minwidth.md R121). -/
def minimalLenSigned (v : Word) : Nat :=
  let u := if v.toInt < 0 then ~~~v else v
  ceilDiv (bitlen u + 1) 8

/-- `leb_len` (42_leb128.md R161). -/
def lebLen (x : Word) : Except ErrorKind Nat :=
  if x.toNat ≥ 2 ^ 56 then .error .invalidLength
  else .ok (if x = 0 then 1 else ceilDiv (bitlen x) 7)

/-- Byte i of a LEB128 encoding of `len` bytes: the group `x[7i+6 : 7i]` under its continuation flag
(42_leb128.md R160, R162). -/
def lebByte (x : Word) (len i : Nat) : Byte :=
  let c : BitVec 1 := if i < len - 1 then 1 else 0
  c ++ x.extractLsb' (7 * i) 7

/-- `LebBytes` (42_leb128.md R162). -/
def lebBytes (x : Word) (len : Nat) : List Byte := (List.range len).map (lebByte x len)

/-- `vlu_len`, the LEB128 length (43_vlu.md R181). -/
def vluLen (x : Word) : Except ErrorKind Nat := lebLen x

/-- The VLU word `(x << len) | (2^(len-1) - 1)` (43_vlu.md R180). -/
def vluWord (x : Word) (len : Nat) : Word := (x <<< len) ||| BitVec.ofNat 64 (2 ^ (len - 1) - 1)

end Sys2Proof.Machine
end

