-- ==== Sys2Proof/Machine/Ops.lean ====
section
/-!
DEFINITION. The named operations over the cursor's bytes and the registers, and the two ways a command ends:
the success commit (30_encoding.md R85) and the error commit (60_exceptions.md R204).

A command's rule computes what it stages (00_scope.md R7) or the error kind it raises (R8); `finish` turns that
into the next state.
-/

namespace Sys2Proof.Machine

/-! ### The bytes of BUF -/

/-- The byte last written at an offset, `none` where nothing has been written. -/
def Memory.lookup : Memory → Nat → Option Byte
  | [], _ => none
  | (k, v) :: rest, o => if k = o then some v else Memory.lookup rest o

/-- Write one byte, keeping the offsets strictly rising. -/
def Memory.insert : Memory → Nat → Byte → Memory
  | [], o, b => [(o, b)]
  | (k, v) :: rest, o, b =>
    if o < k then (o, b) :: (k, v) :: rest
    else if o = k then (o, b) :: rest
    else (k, v) :: Memory.insert rest o b

/-- Write bytes at consecutive offsets from o upward, in increasing offset order (00_scope.md R6). -/
def Memory.writeFrom : Memory → Nat → List Byte → Memory
  | m, _, [] => m
  | m, o, b :: bs => Memory.writeFrom (Memory.insert m o b) (o + 1) bs

/-- The canonical form: offsets strictly rising, so that each offset is listed at most once. -/
def Memory.wf : Memory → Bool
  | [] => true
  | [_] => true
  | (k, _) :: (k', v') :: rest => decide (k < k') && Memory.wf ((k', v') :: rest)

/-- Every listed offset exists in a buffer of `cap` bytes (20_memory.md R51). -/
def Memory.within (m : Memory) (cap : Nat) : Bool := m.all fun cell => decide (cell.1 < cap)

/-- `BUF[o]`: the byte last written there, or else the draw `BUF_INIT` (70_reset_and_hazards.md R231). -/
def State.byteAt (s : State) (o : Nat) : Byte := (Memory.lookup s.buf o).getD (Config.bufInit o)

/-- `CAP - OFF`, the number of bytes remaining (10_state.md R31). Log 9. -/
def State.remainingBytes (s : State) : Nat := s.cap.toNat - s.off.toNat

/-- `check_capacity(n)` (20_memory.md R54). -/
def State.checkCapacity (s : State) (n : Nat) : Bool := decide (n ≤ s.remainingBytes)

/-- `u = u | (zext_64(MemRead(OFF + i, 1)) << 8k)` for i from 0 to n - 1 (41_minwidth.md R123). -/
def State.gather (s : State) (order : ByteOrder) (n : Nat) : Word :=
  (List.range n).foldl
    (fun u i => u ||| ((s.byteAt (s.off.toNat + i)).setWidth 64 <<< (8 * byteIndex order n i))) 0

/-! ### Single registers -/

/-- CMD takes the word the host wrote (30_encoding.md R84). -/
def State.withCmd (s : State) (w : CmdWord) : State := { s with cmd := w }

/-- The host writes A. -/
def State.withA (s : State) (v : Word) : State := { s with a := v }

/-- The host writes B. -/
def State.withB (s : State) (v : Word) : State := { s with b := v }

/-- The host writes C. -/
def State.withC (s : State) (v : Word) : State := { s with c := v }

/-- OFF takes a new value. -/
def State.withOff (s : State) (v : Word) : State := { s with off := v }

/-- One byte of BUF takes a new value. -/
def State.withByte (s : State) (o : Nat) (b : Byte) : State := { s with buf := Memory.insert s.buf o b }

/-- The host's pending actions. -/
def State.withQueue (s : State) (q : List HostAction) : State := { s with queue := q }

/-- What the host's action gives back. -/
def State.withReply (s : State) (r : HostReply) : State := { s with reply := r }

/-! ### How a command ends -/

/-- What a command stages (00_scope.md R7). A result register the rule does not name is written 0
(10_state.md R22), and so is ST.NB (30_encoding.md R84). -/
structure Staged where
  /-- The value staged for R0. -/
  r0 : Word := 0
  /-- The value staged for R1. -/
  r1 : Word := 0
  /-- The value staged for R2. -/
  r2 : Word := 0
  /-- The value staged for R3. -/
  r3 : Word := 0
  /-- The value staged for ST.NB. -/
  nb : BitVec 4 := 0
  /-- The bytes staged for BUF, from OFF upward (20_memory.md R55). -/
  bytes : List Byte := []
  /-- How far OFF advances (20_memory.md R55, R56). -/
  advance : Nat := 0
  deriving DecidableEq, Repr

/-- What a command that writes n bytes stages: the bytes, OFF advanced by n, n in R0 and in ST.NB
(20_memory.md R55, 92_eei_decisions.md D28, D32). -/
def stagedWrite (n : Nat) (bytes : List Byte) : Staged :=
  { r0 := BitVec.ofNat 64 n, nb := BitVec.ofNat 4 n, bytes := bytes, advance := n }

/-- What a command that consumes n bytes with value v stages: OFF advanced by n, v in R0, n in R1 and in ST.NB
(20_memory.md R56, 92_eei_decisions.md D28, D32). -/
def stagedRead (n : Nat) (v : Word) : Staged :=
  { r0 := v, r1 := BitVec.ofNat 64 n, nb := BitVec.ofNat 4 n, advance := n }

/-- The success commit (30_encoding.md R85): the staged writes take effect together. -/
def successCommit (g : Staged) (s : State) : State :=
  { s with
    r0 := g.r0
    r1 := g.r1
    r2 := g.r2
    r3 := g.r3
    st := packStatus 0 g.nb
    off := s.off + BitVec.ofNat 64 g.advance
    buf := Memory.writeFrom s.buf s.off.toNat g.bytes }

/-- The error commit (60_exceptions.md R204): what taking an error does on this block. Nothing staged takes effect,
the results are zero, ST holds the code, and the cursor and the operands stay as they were. -/
def errorCommit (e : ErrorKind) (s : State) : State :=
  { s with r0 := 0, r1 := 0, r2 := 0, r3 := 0, st := packStatus e.code 0 }

/-- The end of a command: the success commit of what its rule staged, or the error commit of the kind it raised
(00_scope.md R8). Both leave the block ready for the next command (60_exceptions.md R206). -/
def finish (r : Except ErrorKind Staged) (s : State) : Host.Outcome State Fault Refusal :=
  .next (match r with
    | .ok g => successCommit g s
    | .error e => errorCommit e s)

/-! ### Procedures that commands share -/

/-- `MWWrite(n, v, order)` (41_minwidth.md R122): length before capacity (60_exceptions.md R205). -/
def mwWrite (n : Nat) (v : Word) (order : ByteOrder) (s : State) : Except ErrorKind Staged :=
  if n < 1 ∨ n > 8 then .error .invalidLength
  else if s.checkCapacity n = false then .error .insufficientBuffer
  else .ok (stagedWrite n (fieldBytes order n v))

/-- `MWRead(n, signed, order)` (41_minwidth.md R123): length before capacity (60_exceptions.md R205). -/
def mwRead (n : Nat) (signed : Bool) (order : ByteOrder) (s : State) : Except ErrorKind Staged :=
  if n > 8 then .error .invalidLength
  else if s.checkCapacity n = false then .error .insufficientBuffer
  else
    let u := s.gather order n
    let r := if signed = true ∧ n > 0 then signExtendBytes u n else u
    .ok (stagedRead n r)

/-- The fields of a pattern and its class (40_ieee754.md R104, R106), for the format's widths. -/
def decompose (fmt : FloatFormat) (p : Word) : Staged :=
  let sign := p.extractLsb' (fmt.expWidth + fmt.manWidth) 1
  let e := p.extractLsb' fmt.manWidth fmt.expWidth
  let m := p.extractLsb' 0 fmt.manWidth
  { r0 := sign.setWidth 64, r1 := e.setWidth 64, r2 := m.setWidth 64, r3 := (classify e m).code }

/-- The pattern made of `a[0]`, `b` and `c`, exponent checked before mantissa (40_ieee754.md R105, R107). -/
def recompose (fmt : FloatFormat) (a b c : Word) : Except ErrorKind Staged :=
  if b.toNat ≥ 2 ^ fmt.expWidth then .error .overflow
  else if c.toNat ≥ 2 ^ fmt.manWidth then .error .overflow
  else .ok { r0 := (a.extractLsb' 0 1 ++ b.extractLsb' 0 fmt.expWidth ++ c.extractLsb' 0 fmt.manWidth).setWidth 64 }

/-- A length command's result in R0 (42_leb128.md R163, 43_vlu.md R183). -/
def lengthResult : Except ErrorKind Nat → Except ErrorKind Staged
  | .error e => .error e
  | .ok len => .ok { r0 := BitVec.ofNat 64 len }

/-- LEB128 write of x (42_leb128.md R164): the value's range before capacity. -/
def lebWrite (x : Word) (s : State) : Except ErrorKind Staged :=
  match lebLen x with
  | .error e => .error e
  | .ok len =>
    if s.checkCapacity len = false then .error .insufficientBuffer
    else .ok (stagedWrite len (lebBytes x len))

/-- The loop of LEBRD from byte i on, with `fuel` of the eight bytes left and x read so far (42_leb128.md R165). -/
def lebReadFrom (s : State) : (fuel i : Nat) → Word → Except ErrorKind Staged
  | 0, _, _ => .error .invalidLength
  | fuel + 1, i, x =>
    if s.checkCapacity (i + 1) = false then .error .insufficientBuffer
    else
      let b := s.byteAt (s.off.toNat + i)
      let x' := x ||| ((b.extractLsb' 0 7).setWidth 64 <<< (7 * i))
      if b.getLsbD 7 = false then .ok (stagedRead (i + 1) x')
      else lebReadFrom s fuel (i + 1) x'

/-- VLU write of x (43_vlu.md R184): the little-endian minimal-width write of the VLU word. -/
def vluWrite (x : Word) (s : State) : Except ErrorKind Staged :=
  match vluLen x with
  | .error e => .error e
  | .ok len => mwWrite len (vluWord x len) .le s

/-- The little-endian value of the bytes after the first (43_vlu.md R185). -/
def State.vluTail (s : State) (len : Nat) : Word :=
  (List.range (len - 1)).foldl
    (fun t j => t ||| ((s.byteAt (s.off.toNat + (j + 1))).setWidth 64 <<< (8 * j))) 0

/-- VLU read (43_vlu.md R185), its checks in the order of 60_exceptions.md R205. -/
def vluRead (s : State) : Except ErrorKind Staged :=
  if s.checkCapacity 1 = false then .error .insufficientBuffer
  else
    let b0 := s.byteAt s.off.toNat
    let len := cto8 b0 + 1
    if len > 8 then .error .invalidLength
    else if s.checkCapacity len = false then .error .insufficientBuffer
    else
      let x := (b0.setWidth 64 >>> len) ||| (s.vluTail len <<< (8 - len))
      .ok (stagedRead len x)

end Sys2Proof.Machine
end

