-- ==== Sys2Proof/Machine/Ieee754.lean ====
section
/-!
DEFINITION. The IEEE-754 decomposer and recomposer (40_ieee754.md). Every pattern passes bit-exact: nothing rounds,
canonicalises a NaN or raises a flag (R103).
-/

namespace Sys2Proof.Machine

/-- FDEC64 (40_ieee754.md R104). -/
def execFdec64 (s : State) : Host.Outcome State Fault Refusal := finish (.ok (decompose Config.f64 s.a)) s

/-- FREC64 (40_ieee754.md R105). -/
def execFrec64 (s : State) : Host.Outcome State Fault Refusal := finish (recompose Config.f64 s.a s.b s.c) s

/-- FDEC32 (40_ieee754.md R106): the pattern is A[31:0]. -/
def execFdec32 (s : State) : Host.Outcome State Fault Refusal :=
  finish (.ok (decompose Config.f32 ((s.a.extractLsb' 0 32).setWidth 64))) s

/-- FREC32 (40_ieee754.md R107). -/
def execFrec32 (s : State) : Host.Outcome State Fault Refusal := finish (recompose Config.f32 s.a s.b s.c) s

end Sys2Proof.Machine
end

