-- ==== Sys2Proof/Machine/Leb128.lean ====
section
/-!
DEFINITION. The LEB128 codec (42_leb128.md).
-/

namespace Sys2Proof.Machine

/-- LEBLEN (42_leb128.md R163). -/
def execLeblen (s : State) : Host.Outcome State Fault Refusal := finish (lengthResult (lebLen s.a)) s

/-- LEBWR (42_leb128.md R164). -/
def execLebwr (s : State) : Host.Outcome State Fault Refusal := finish (lebWrite s.a s) s

/-- LEBRD (42_leb128.md R165): at most eight bytes, no ninth is looked at. -/
def execLebrd (s : State) : Host.Outcome State Fault Refusal := finish (lebReadFrom s 8 0 0) s

end Sys2Proof.Machine
end

