-- ==== Sys2Proof/Machine/MinWidth.lean ====
section
/-!
DEFINITION. The minimal-width integer encoder and decoder (41_minwidth.md).
-/

namespace Sys2Proof.Machine

/-- MLENU (41_minwidth.md R124). -/
def execMlenu (s : State) : Host.Outcome State Fault Refusal :=
  finish (.ok { r0 := BitVec.ofNat 64 (minimalLen s.a) }) s

/-- MLENS (41_minwidth.md R125). -/
def execMlens (s : State) : Host.Outcome State Fault Refusal :=
  finish (.ok { r0 := BitVec.ofNat 64 (minimalLenSigned s.a) }) s

/-- WRBE n (41_minwidth.md R126). -/
def execWrbe (n : Nat) (s : State) : Host.Outcome State Fault Refusal := finish (mwWrite n s.a .be s) s

/-- WRLE n (41_minwidth.md R127). -/
def execWrle (n : Nat) (s : State) : Host.Outcome State Fault Refusal := finish (mwWrite n s.a .le s) s

/-- WRBEMU (41_minwidth.md R128). -/
def execWrbemu (s : State) : Host.Outcome State Fault Refusal := finish (mwWrite (minimalLen s.a) s.a .be s) s

/-- WRBEMS (41_minwidth.md R129). -/
def execWrbems (s : State) : Host.Outcome State Fault Refusal := finish (mwWrite (minimalLenSigned s.a) s.a .be s) s

/-- WRLEMU (41_minwidth.md R130). -/
def execWrlemu (s : State) : Host.Outcome State Fault Refusal := finish (mwWrite (minimalLen s.a) s.a .le s) s

/-- WRLEMS (41_minwidth.md R131). -/
def execWrlems (s : State) : Host.Outcome State Fault Refusal := finish (mwWrite (minimalLenSigned s.a) s.a .le s) s

/-- RDBEU n (41_minwidth.md R132). -/
def execRdbeu (n : Nat) (s : State) : Host.Outcome State Fault Refusal := finish (mwRead n false .be s) s

/-- RDBES n (41_minwidth.md R133). -/
def execRdbes (n : Nat) (s : State) : Host.Outcome State Fault Refusal := finish (mwRead n true .be s) s

/-- RDLEU n (41_minwidth.md R134). -/
def execRdleu (n : Nat) (s : State) : Host.Outcome State Fault Refusal := finish (mwRead n false .le s) s

/-- RDLES n (41_minwidth.md R135). -/
def execRdles (n : Nat) (s : State) : Host.Outcome State Fault Refusal := finish (mwRead n true .le s) s

end Sys2Proof.Machine
end

