-- ==== Sys2Proof/Machine/Vlu.lean ====
section
/-!
DEFINITION. The VLU codec (43_vlu.md), with the decoder as 90_conflicts.md C1 and C2 resolve it.
-/

namespace Sys2Proof.Machine

/-- VLULEN (43_vlu.md R183). -/
def execVlulen (s : State) : Host.Outcome State Fault Refusal := finish (lengthResult (vluLen s.a)) s

/-- VLUWR (43_vlu.md R184). -/
def execVluwr (s : State) : Host.Outcome State Fault Refusal := finish (vluWrite s.a s) s

/-- VLURD (43_vlu.md R185). -/
def execVlurd (s : State) : Host.Outcome State Fault Refusal := finish (vluRead s) s

end Sys2Proof.Machine
end

