-- ==== Sys2Proof/Machine/Dispatch.lean ====
section
/-!
DEFINITION. One arm per command (30_encoding.md R86): the rule of its operation code.
-/

namespace Sys2Proof.Machine

def exec (i : Instr) (s : State) : Host.Outcome State Fault Refusal :=
  match i with
  | .fdec64 => Sys2Proof.Machine.execFdec64 s
  | .frec64 => Sys2Proof.Machine.execFrec64 s
  | .fdec32 => Sys2Proof.Machine.execFdec32 s
  | .frec32 => Sys2Proof.Machine.execFrec32 s
  | .mlenu => Sys2Proof.Machine.execMlenu s
  | .mlens => Sys2Proof.Machine.execMlens s
  | .wrbe n => Sys2Proof.Machine.execWrbe n s
  | .wrle n => Sys2Proof.Machine.execWrle n s
  | .wrbemu => Sys2Proof.Machine.execWrbemu s
  | .wrbems => Sys2Proof.Machine.execWrbems s
  | .wrlemu => Sys2Proof.Machine.execWrlemu s
  | .wrlems => Sys2Proof.Machine.execWrlems s
  | .rdbeu n => Sys2Proof.Machine.execRdbeu n s
  | .rdbes n => Sys2Proof.Machine.execRdbes n s
  | .rdleu n => Sys2Proof.Machine.execRdleu n s
  | .rdles n => Sys2Proof.Machine.execRdles n s
  | .leblen => Sys2Proof.Machine.execLeblen s
  | .lebwr => Sys2Proof.Machine.execLebwr s
  | .lebrd => Sys2Proof.Machine.execLebrd s
  | .vlulen => Sys2Proof.Machine.execVlulen s
  | .vluwr => Sys2Proof.Machine.execVluwr s
  | .vlurd => Sys2Proof.Machine.execVlurd s

end Sys2Proof.Machine
end

