-- ==== Sys2Proof/Machine/HostPort.lean ====
section
/-!
DEFINITION. What the host can do to the block: issue a command (30_encoding.md R84), access the register space
(20_memory.md R52, R53), run a cursor operation (R65 to R67), access BUF directly (R68), reset the block
(70_reset_and_hazards.md R230, R231).
-/

namespace Sys2Proof.Machine

/-- `IssueCommand(w)` (30_encoding.md R84): CMD takes w even if the command fails; a word that does not decode raises
IllegalCommand (R87); otherwise the rule of its operation code runs. -/
def issueCommand (w : CmdWord) (s : State) : Host.Outcome State Fault Refusal :=
  match decode w with
  | .error _ => finish (.error .illegalCommand) (s.withCmd w)
  | .ok i => exec i (s.withCmd w)

/-- The registers of the register space (20_memory.md R52). -/
inductive Reg where
  | a
  | b
  | c
  | cmd
  | st
  | r0
  | r1
  | r2
  | r3
  deriving DecidableEq, Repr

/-- The register map: block offset, access width in bits, register (20_memory.md R52). -/
def registerMap : List (Nat × Nat × Reg) :=
  [ (0x00, 64, .a), (0x08, 64, .b), (0x10, 64, .c), (0x18, 32, .cmd), (0x1C, 32, .st),
    (0x20, 64, .r0), (0x28, 64, .r1), (0x30, 64, .r2), (0x38, 64, .r3) ]

/-- The register a whole-register access moves; `none` for any other access (20_memory.md R53). -/
def regAt (offset : Word) (bits : Nat) : Option Reg :=
  (registerMap.find? fun row => row.1 == offset.toNat && row.2.1 == bits).map fun row => row.2.2

/-- The value a host read of a register returns (10_state.md section 1; CMD reads as the last word written, R24). -/
def readRegister (r : Reg) (s : State) : HostReply :=
  match r with
  | .a => .word s.a
  | .b => .word s.b
  | .c => .word s.c
  | .cmd => .half s.cmd
  | .st => .half s.st
  | .r0 => .word s.r0
  | .r1 => .word s.r1
  | .r2 => .word s.r2
  | .r3 => .word s.r3

/-- A host write of a register: A, B and C take the value, CMD issues the command, and a write to ST or to R0 to R3
has no effect (10_state.md R20, R23, R24). -/
def writeRegister (r : Reg) (data : Word) (s : State) : Host.Outcome State Fault Refusal :=
  match r with
  | .a => .next (s.withA data)
  | .b => .next (s.withB data)
  | .c => .next (s.withC data)
  | .cmd => issueCommand (data.setWidth 32) s
  | .st => .next s
  | .r0 => .next s
  | .r1 => .next s
  | .r2 => .next s
  | .r3 => .next s

/-- A host write to the register space (20_memory.md R53). -/
def hostWrite (offset : Word) (bits : Nat) (data : Word) (s : State) : Host.Outcome State Fault Refusal :=
  match regAt offset bits with
  | none => .refused (.registerAccess offset bits)
  | some r => writeRegister r data (s.withReply .done)

/-- A host read from the register space; it changes nothing of the block (20_memory.md R53, R64). -/
def hostRead (offset : Word) (bits : Nat) (s : State) : Host.Outcome State Fault Refusal :=
  match regAt offset bits with
  | none => .refused (.registerAccess offset bits)
  | some r => .next (s.withReply (readRegister r s))

/-- The block offset of an address of the host's address map (20_memory.md R52). Log 4. -/
def blockOffset (addr : Word) : Word := addr - Config.vnbBase

/-- `seek(o)` (20_memory.md R67). -/
def cursorSeek (o : Word) (s : State) : State :=
  if o.toNat ≤ s.cap.toNat then (s.withOff o).withReply .done else s.withReply .failed

/-- The host writes BUF[o] directly (20_memory.md R68); an offset at or above CAP does not exist (R51). -/
def pokeByte (o : Word) (b : Byte) (s : State) : Host.Outcome State Fault Refusal :=
  if o.toNat < s.cap.toNat then .next ((s.withByte o.toNat b).withReply .done) else .fault (.bufferOffset o)

/-- The host reads BUF[o] directly (20_memory.md R68); an offset at or above CAP does not exist (R51). -/
def peekByte (o : Word) (s : State) : Host.Outcome State Fault Refusal :=
  if o.toNat < s.cap.toNat then .next (s.withReply (.byte (s.byteAt o.toNat))) else .fault (.bufferOffset o)

/-- Reset of the block (70_reset_and_hazards.md R230, R231): every register 0 and OFF 0, while CAP and the bytes of
BUF stay; CMD = 0 issues no command. -/
def vnbReset (s : State) : State :=
  { s with a := 0, b := 0, c := 0, cmd := 0, st := 0, r0 := 0, r1 := 0, r2 := 0, r3 := 0, off := 0 }

/-- One host action, one atomic step (20_memory.md R69, 30_encoding.md R84). -/
def runAction (h : HostAction) (s : State) : Host.Outcome State Fault Refusal :=
  match h with
  | .regWrite offset bits data => hostWrite offset bits data s
  | .regRead offset bits => hostRead offset bits s
  | .busWrite addr bits data => hostWrite (blockOffset addr) bits data s
  | .busRead addr bits => hostRead (blockOffset addr) bits s
  | .cursorReset => .next ((s.withOff 0).withReply .done)
  | .seek o => .next (cursorSeek o s)
  | .offset => .next (s.withReply (.word s.off))
  | .remaining => .next (s.withReply (.span s.off (BitVec.ofNat 64 s.remainingBytes)))
  | .poke o b => pokeByte o b s
  | .peek o => peekByte o s
  | .vnbReset => .next ((vnbReset s).withReply .done)
  | .contendedCommand _ => .fault .sharedCursor

end Sys2Proof.Machine
end

