-- ==== Sys2Proof/Machine/Step.lean ====
section
/-!
DEFINITION. One step: the next host action, if one is pending (20_memory.md R69); otherwise the block waits
(70_reset_and_hazards.md R232).
-/

namespace Sys2Proof.Machine

/-- One step of the machine. With no action pending the block is idle and its state persists (60_exceptions.md R217). -/
def step (s : State) : Host.Outcome State Fault Refusal :=
  match s.queue with
  | [] => .next s
  | h :: rest => runAction h (s.withQueue rest)

/-- The state whose next step is the host's 32-bit write of the command word `w` to CMD (20_memory.md R52,
30_encoding.md R84), whatever actions were pending after it. Log 1. -/
def State.withFetchWord (s : State) (nbits w : Nat) : State :=
  s.withQueue (.regWrite 0x18 32 (BitVec.ofNat 64 (w % 2 ^ nbits)) :: s.queue)

end Sys2Proof.Machine
end

