-- ==== Sys2Proof/Machine/HostProgram.lean ====
section
/-!
DEFINITION. The assembler's notation for commands (30_encoding.md R89) and the host program notation (R90). A text is
a list of characters.
-/

namespace Sys2Proof.Machine

/-- The mnemonics, in the table's order (30_encoding.md R86), with the command each stands for. -/
def mnemonicMap : List (List Char × OpcodeEntry) :=
  [ ("FDEC64".toList, .plain .fdec64), ("FREC64".toList, .plain .frec64),
    ("FDEC32".toList, .plain .fdec32), ("FREC32".toList, .plain .frec32),
    ("MLENU".toList, .plain .mlenu), ("MLENS".toList, .plain .mlens),
    ("WRBE".toList, .counted .wrbe), ("WRLE".toList, .counted .wrle),
    ("WRBEMU".toList, .plain .wrbemu), ("WRBEMS".toList, .plain .wrbems),
    ("WRLEMU".toList, .plain .wrlemu), ("WRLEMS".toList, .plain .wrlems),
    ("RDBEU".toList, .counted .rdbeu), ("RDBES".toList, .counted .rdbes),
    ("RDLEU".toList, .counted .rdleu), ("RDLES".toList, .counted .rdles),
    ("LEBLEN".toList, .plain .leblen), ("LEBWR".toList, .plain .lebwr),
    ("LEBRD".toList, .plain .lebrd), ("VLULEN".toList, .plain .vlulen),
    ("VLUWR".toList, .plain .vluwr), ("VLURD".toList, .plain .vlurd) ]

/-- A byte count: a decimal numeral 0 to 15 (30_encoding.md R89). Log 12. -/
def readCount (ds : List Char) : Option Nat :=
  if ds = [] ∨ ds.all Char.isDigit = false then none
  else
    let n := ds.foldl (fun acc d => 10 * acc + (d.toNat - '0'.toNat)) 0
    if n ≤ 15 then some n else none

/-- The words of a line, separated by spaces. -/
def lineWords (line : List Char) : List (List Char) := (line.splitOn ' ').filter (· ≠ [])

/-- Assemble one command: its mnemonic in any letter case, then its byte count for the six commands that take one; any
other operand is refused (30_encoding.md R89). -/
def assemble (line : List Char) : Option Instr :=
  match lineWords line with
  | [m] =>
    match mnemonicMap.find? (fun row => row.1 == m.map Char.toUpper) with
    | some (_, .plain i) => some i
    | _ => none
  | [m, n] =>
    match mnemonicMap.find? (fun row => row.1 == m.map Char.toUpper) with
    | some (_, .counted i) => (readCount n).map i
    | _ => none
  | _ => none

/-- The decimal numeral of a byte count, after a space. -/
def countText (n : Nat) : List Char := ' ' :: Nat.toDigits 10 n

end Sys2Proof.Machine

namespace Sys2Proof

/-- A command printed: the mnemonic in upper case and its byte count (30_encoding.md R89). -/
def Instr.text : Instr → List Char
  | .fdec64 => "FDEC64".toList
  | .frec64 => "FREC64".toList
  | .fdec32 => "FDEC32".toList
  | .frec32 => "FREC32".toList
  | .mlenu => "MLENU".toList
  | .mlens => "MLENS".toList
  | .wrbe n => "WRBE".toList ++ Machine.countText n
  | .wrle n => "WRLE".toList ++ Machine.countText n
  | .wrbemu => "WRBEMU".toList
  | .wrbems => "WRBEMS".toList
  | .wrlemu => "WRLEMU".toList
  | .wrlems => "WRLEMS".toList
  | .rdbeu n => "RDBEU".toList ++ Machine.countText n
  | .rdbes n => "RDBES".toList ++ Machine.countText n
  | .rdleu n => "RDLEU".toList ++ Machine.countText n
  | .rdles n => "RDLES".toList ++ Machine.countText n
  | .leblen => "LEBLEN".toList
  | .lebwr => "LEBWR".toList
  | .lebrd => "LEBRD".toList
  | .vlulen => "VLULEN".toList
  | .vluwr => "VLUWR".toList
  | .vlurd => "VLURD".toList

end Sys2Proof

namespace Sys2Proof.Machine

/-- One line of a host program (30_encoding.md R90). -/
inductive HostLine where
  /-- `A = v`. -/
  | setA (v : Word)
  /-- `B = v`. -/
  | setB (v : Word)
  /-- `C = v`. -/
  | setC (v : Word)
  /-- `cmd <command>`. -/
  | command (i : Instr)
  /-- `cmd 0xWWWWWWWW`. -/
  | rawCommand (w : CmdWord)
  /-- `seek o`. -/
  | seek (o : Word)
  /-- `reset`, the cursor's. -/
  | reset
  /-- `poke o: bytes`. -/
  | poke (o : Word) (bytes : List Byte)
  deriving DecidableEq, Repr

/-- The direct writes of bytes from an offset upward (30_encoding.md R90). Log 13. -/
def pokeActions : Word → List Byte → List HostAction
  | _, [] => []
  | o, b :: bs => .poke o b :: pokeActions (o + 1) bs

/-- The host actions a line stands for (30_encoding.md R90, 20_memory.md R52). -/
def HostLine.actions : HostLine → List HostAction
  | .setA v => [.regWrite 0x00 64 v]
  | .setB v => [.regWrite 0x08 64 v]
  | .setC v => [.regWrite 0x10 64 v]
  | .command i => [.regWrite 0x18 32 ((encode i).setWidth 64)]
  | .rawCommand w => [.regWrite 0x18 32 (w.setWidth 64)]
  | .seek o => [.seek o]
  | .reset => [.cursorReset]
  | .poke o bytes => pokeActions o bytes

/-- The state in which a host program's lines are the next actions, in order (30_encoding.md R90). Log 1. -/
def State.withProgram (s : State) (lines : List HostLine) : State :=
  s.withQueue (lines.flatMap HostLine.actions ++ s.queue)

/-- What a host program's end shows (70_reset_and_hazards.md R242): the registers, OFF and the bytes that have been
written. It says nothing of bytes nothing wrote, of an implementation's transfers, or of time. -/
structure EndState where
  a : Word
  b : Word
  c : Word
  cmd : CmdWord
  st : BitVec 32
  r0 : Word
  r1 : Word
  r2 : Word
  r3 : Word
  off : Word
  written : Memory
  deriving DecidableEq, Repr

/-- The end state, once no line of the program is left (70_reset_and_hazards.md R242). -/
def State.endState (s : State) : Option EndState :=
  if s.queue = [] then
    some { a := s.a, b := s.b, c := s.c, cmd := s.cmd, st := s.st, r0 := s.r0, r1 := s.r1, r2 := s.r2, r3 := s.r3,
           off := s.off, written := s.buf }
  else none

end Sys2Proof.Machine
end

