-- ==== Sys2Proof/Safety.lean ====
section
/-!
DEFINITION. The terms the claims are stated in: the invariant of the machine, what each kind of ending leaves, and
the values of the spec's tables as natural numbers. Nothing here is used by the machine.
-/

namespace Sys2Proof.Machine

/-! ### The invariant -/

/-- ST holds a legal status: ERR is a code some command writes, NB is at most 8 and 0 after an error, and
ST[31:8] is 0 (10_state.md R25 to R27, 60_exceptions.md R201, R203). -/
abbrev StatusLegal (st : BitVec 32) : Prop :=
  (st.toNat % 16 = 0 ∨ st.toNat % 16 = 1 ∨ st.toNat % 16 = 2 ∨ st.toNat % 16 = 4 ∨ st.toNat % 16 = 5) ∧
    st.toNat / 16 ≤ 8 ∧ (st.toNat % 16 ≠ 0 → st.toNat / 16 = 0)

/-- What holds of every reachable state: OFF <= CAP (10_state.md R29), the buffer in canonical form with no byte at
or above CAP (20_memory.md R51), a legal status. -/
abbrev State.Inv (s : State) : Prop :=
  s.off.toNat ≤ s.cap.toNat ∧ Memory.wf s.buf = true ∧ Memory.within s.buf s.cap.toNat = true ∧ StatusLegal s.st

/-! ### What a command leaves -/

/-- A, B, C, CMD and CAP are as they were, and so is the host's side of the port. -/
def SameHostSide (s t : State) : Prop :=
  t.a = s.a ∧ t.b = s.b ∧ t.c = s.c ∧ t.cmd = s.cmd ∧ t.cap = s.cap ∧ t.queue = s.queue ∧ t.reply = s.reply

/-- R0 to R3, as numbers. -/
def Results (t : State) (v0 v1 v2 v3 : Nat) : Prop :=
  t.r0.toNat = v0 ∧ t.r1.toNat = v1 ∧ t.r2.toNat = v2 ∧ t.r3.toNat = v3

/-- ST.ERR and ST.NB, and every other bit of ST 0 (10_state.md R27). -/
def Status (t : State) (err nb : Nat) : Prop := t.st.toNat = err + 16 * nb

/-- OFF and every byte of BUF are as they were. -/
def SameCursor (s t : State) : Prop := t.off = s.off ∧ ∀ o, t.byteAt o = s.byteAt o

/-- The command completed without touching the cursor, with these results; nothing else changed. -/
def CompletesWith (s t : State) (v0 v1 v2 v3 : Nat) : Prop :=
  SameHostSide s t ∧ SameCursor s t ∧ Results t v0 v1 v2 v3 ∧ Status t 0 0

/-- The command ended in error with this code; nothing of it is visible but the status (60_exceptions.md R204). -/
def EndsInError (s t : State) (code : Nat) : Prop :=
  SameHostSide s t ∧ SameCursor s t ∧ Results t 0 0 0 0 ∧ Status t code 0

/-- The command stored n bytes at OFF to OFF + n - 1, byte i being `f i`, and advanced OFF by n; every byte outside
those is as it was (20_memory.md R55). -/
def Stored (s t : State) (n : Nat) (f : Nat → Nat) : Prop :=
  SameHostSide s t ∧ t.off.toNat = s.off.toNat + n ∧ Results t n 0 0 0 ∧ Status t 0 n ∧
    (∀ i, i < n → (t.byteAt (s.off.toNat + i)).toNat = f i) ∧
    ∀ o, (o < s.off.toNat ∨ s.off.toNat + n ≤ o) → t.byteAt o = s.byteAt o

/-- The command consumed n bytes from OFF with value v and advanced OFF by n; every byte is as it was
(20_memory.md R56). -/
def Consumed (s t : State) (n v : Nat) : Prop :=
  SameHostSide s t ∧ t.off.toNat = s.off.toNat + n ∧ (∀ o, t.byteAt o = s.byteAt o) ∧ Results t v n 0 0 ∧ Status t 0 n

/-- `CAP - OFF` leaves room for n bytes (20_memory.md R54), as numbers. -/
abbrev Fits (s : State) (n : Nat) : Prop := n ≤ s.cap.toNat - s.off.toNat

/-! ### Values as numbers -/

/-- The big-endian value of the n bytes at offsets o to o + n - 1 (20_memory.md R58). -/
def State.beValue (s : State) (o : Nat) : Nat → Nat
  | 0 => 0
  | n + 1 => 256 * State.beValue s o n + (s.byteAt (o + n)).toNat

/-- The little-endian value of the n bytes at offsets o to o + n - 1 (20_memory.md R58). -/
def State.leValue (s : State) : (o n : Nat) → Nat
  | _, 0 => 0
  | o, n + 1 => (s.byteAt o).toNat + 256 * State.leValue s (o + 1) n

/-- The value of n LEB128 groups at offsets o to o + n - 1 (42_leb128.md R160). -/
def State.lebValue (s : State) : (o n : Nat) → Nat
  | _, 0 => 0
  | o, n + 1 => (s.byteAt o).toNat % 128 + 128 * State.lebValue s (o + 1) n

/-- The 64-bit pattern of an n-byte two's-complement number whose unsigned value is v (41_minwidth.md R123). -/
def signExtendedValue (n v : Nat) : Nat :=
  if 1 ≤ n ∧ 2 ^ (8 * n - 1) ≤ v then v + (2 ^ 64 - 2 ^ (8 * n)) else v

/-- The class code of a biased exponent and a mantissa, for an exponent of `ew` bits (40_ieee754.md R102). -/
def classNumber (ew e m : Nat) : Nat :=
  if e = 0 then (if m = 0 then 0 else 1)
  else if e = 2 ^ ew - 1 then (if m = 0 then 3 else 4)
  else 2

/-- n is the smallest byte count in 1 to 8 into which v fits (41_minwidth.md R120). -/
abbrev IsMinimalUnsigned (v n : Nat) : Prop :=
  1 ≤ n ∧ n ≤ 8 ∧ v < 2 ^ (8 * n) ∧ ∀ m, m < n → 1 ≤ m → 2 ^ (8 * m) ≤ v

/-- n is the smallest byte count in 1 to 8 whose two's-complement range holds v (41_minwidth.md R121). -/
abbrev IsMinimalSigned (v : Int) (n : Nat) : Prop :=
  1 ≤ n ∧ n ≤ 8 ∧ (-(2 ^ (8 * n - 1)) ≤ v ∧ v < 2 ^ (8 * n - 1)) ∧
    ∀ m, m < n → 1 ≤ m → ¬(-(2 ^ (8 * m - 1)) ≤ v ∧ v < 2 ^ (8 * m - 1))

/-- n is the smallest number of seven-bit groups in 1 to 8 that holds v (42_leb128.md R161, 43_vlu.md R181). -/
abbrev IsVarintLength (v n : Nat) : Prop :=
  1 ≤ n ∧ n ≤ 8 ∧ v < 2 ^ (7 * n) ∧ ∀ m, m < n → 1 ≤ m → 2 ^ (7 * m) ≤ v

end Sys2Proof.Machine

namespace Sys2Proof

/-! ### Which operands a command names -/

/-- The command names A: all but those that read BUF (10_state.md R20; 40_ieee754.md to 43_vlu.md). -/
def Instr.namesA : Instr → Bool
  | .fdec64 => true
  | .frec64 => true
  | .fdec32 => true
  | .frec32 => true
  | .mlenu => true
  | .mlens => true
  | .wrbe _ => true
  | .wrle _ => true
  | .wrbemu => true
  | .wrbems => true
  | .wrlemu => true
  | .wrlems => true
  | .rdbeu _ => false
  | .rdbes _ => false
  | .rdleu _ => false
  | .rdles _ => false
  | .leblen => true
  | .lebwr => true
  | .lebrd => false
  | .vlulen => true
  | .vluwr => true
  | .vlurd => false

/-- The command names B and C: the recompositions (10_state.md R20). -/
def Instr.namesBC : Instr → Bool
  | .fdec64 => false
  | .frec64 => true
  | .fdec32 => false
  | .frec32 => true
  | .mlenu => false
  | .mlens => false
  | .wrbe _ => false
  | .wrle _ => false
  | .wrbemu => false
  | .wrbems => false
  | .wrlemu => false
  | .wrlems => false
  | .rdbeu _ => false
  | .rdbes _ => false
  | .rdleu _ => false
  | .rdles _ => false
  | .leblen => false
  | .lebwr => false
  | .lebrd => false
  | .vlulen => false
  | .vluwr => false
  | .vlurd => false

/-- The command moves no buffer bytes: the IEEE-754 and the length commands (20_memory.md R62). -/
def Instr.movesNoBytes : Instr → Bool
  | .fdec64 => true
  | .frec64 => true
  | .fdec32 => true
  | .frec32 => true
  | .mlenu => true
  | .mlens => true
  | .wrbe _ => false
  | .wrle _ => false
  | .wrbemu => false
  | .wrbems => false
  | .wrlemu => false
  | .wrlems => false
  | .rdbeu _ => false
  | .rdbes _ => false
  | .rdleu _ => false
  | .rdles _ => false
  | .leblen => true
  | .lebwr => false
  | .lebrd => false
  | .vlulen => true
  | .vluwr => false
  | .vlurd => false

end Sys2Proof

namespace Sys2Proof.Machine

/-- The rows of the opcode table as (match, mask) (30_encoding.md R86). -/
def commandRows : List (CmdWord × CmdWord) :=
  [ (0x10, 0xFFFFFFFF), (0x11, 0xFFFFFFFF), (0x12, 0xFFFFFFFF), (0x13, 0xFFFFFFFF),
    (0x20, 0xFFFFFFFF), (0x21, 0xFFFFFFFF), (0x22, 0xFFFFF0FF), (0x23, 0xFFFFF0FF),
    (0x24, 0xFFFFFFFF), (0x25, 0xFFFFFFFF), (0x26, 0xFFFFFFFF), (0x27, 0xFFFFFFFF),
    (0x28, 0xFFFFF0FF), (0x29, 0xFFFFF0FF), (0x2A, 0xFFFFF0FF), (0x2B, 0xFFFFF0FF),
    (0x30, 0xFFFFFFFF), (0x31, 0xFFFFFFFF), (0x32, 0xFFFFFFFF),
    (0x38, 0xFFFFFFFF), (0x39, 0xFFFFFFFF), (0x3A, 0xFFFFFFFF) ]

/-- The word is a command: it matches a row of the table (30_encoding.md R86). -/
abbrev MatchesRow (w : CmdWord) : Prop := ∃ row ∈ commandRows, w &&& row.2 = row.1

end Sys2Proof.Machine
end

