-- ==== Sys2Proof/Certificates/Slice0/Obligations.lean ====
section
/-!
DEFINITION. The statements for the provers. Each docstring names the rule of spec/ it formalises, or says that it
rests on a choice of the model and names the log entry.
-/

open Sys2Proof Sys2Proof.Machine

/-! ### The command word -/

/-- Decoding an encoded well-formed command gives it back, with every byte count (30_encoding.md R86). -/
def Obligations.DecodeEncodeAllCommands : Prop :=
  ∀ i : Instr, i.wellFormed = true → decode (encode i) = .ok i

/-- A word that decodes is the word of the command it decodes to, and that command is well-formed: no bit of a command
word is left unread (30_encoding.md R80, R86). -/
def Obligations.EncodeDecodeAllWords : Prop :=
  ∀ (w : CmdWord) (i : Instr), decode w = .ok i → i.wellFormed = true ∧ encode i = w

/-- The decoder recognises exactly the words w with `(w & mask) == match` for a row of the table
(30_encoding.md R86). -/
def Obligations.DecodeAcceptsExactlyTableRows : Prop :=
  ∀ w : CmdWord, (∃ i, decode w = .ok i) ↔ MatchesRow w

/-- Words of every family, written out from the spec's encoding, decode to their command (30_encoding.md R86,
95_test_vectors.md). -/
def Obligations.DecodeWordsWrittenFromSpec : Prop :=
  decode 0b00000000000000000000000000010000 = .ok .fdec64 ∧
  decode 0b00000000000000000000000000010011 = .ok .frec32 ∧
  decode 0b00000000000000000000000000100001 = .ok .mlens ∧
  decode 0b00000000000000000000100000100010 = .ok (.wrbe 8) ∧
  decode 0b00000000000000000000111100100010 = .ok (.wrbe 15) ∧
  decode 0b00000000000000000000001100101011 = .ok (.rdles 3) ∧
  decode 0b00000000000000000000000000110010 = .ok .lebrd ∧
  decode 0b00000000000000000000000000111001 = .ok .vluwr ∧
  decode 0b00000000000000000000000100010000 = .error .unexpectedCount ∧
  decode 0b00000000000000000001000000100010 = .error .reservedBits ∧
  decode 0b00000000000000000000111100101100 = .error .unassignedOpcode

/-- RSV != 0 raises IllegalCommand, whatever OPC and N hold (30_encoding.md R83): the error commit takes place, with
the word kept in CMD. -/
def Obligations.ReservedBitsRaiseIllegalCommand : Prop :=
  ∀ (s : State) (w : CmdWord), w.extractLsb' 12 20 ≠ 0 →
    ∃ t, issueCommand w s = .next t ∧ EndsInError (s.withCmd w) t 5

/-- Every word that matches no row of the opcode map raises IllegalCommand (30_encoding.md R87). -/
def Obligations.WordsOutsideTableRaiseIllegalCommand : Prop :=
  ∀ (s : State) (w : CmdWord), ¬ MatchesRow w →
    ∃ t, issueCommand w s = .next t ∧ EndsInError (s.withCmd w) t 5

/-! ### The step -/

/-- When the next host action is a 32-bit write to CMD of a word that decodes to a command, the step is that command
run where CMD holds the word, the write is acknowledged and the action is taken from the queue (30_encoding.md R84; the
queue and the reply are the model's, logs 1 and 5). -/
def Obligations.StepRunsDecodedCommand : Prop :=
  ∀ (s : State) (rest : List HostAction) (data : Word) (i : Instr),
    s.queue = .regWrite 0x18 32 data :: rest → decode (data.setWidth 32) = .ok i →
      step s = exec i (((s.withQueue rest).withReply .done).withCmd (data.setWidth 32))

/-- The step at a pending write of any word to CMD issues that word, and the word of a well-formed command runs exactly
that command, where CMD holds the word (30_encoding.md R84, R86). That the write is pending in a queue and is
acknowledged are the model's choices (logs 1 and 5). -/
def Obligations.CommandWordRunsItsCommand : Prop :=
  ∀ s : State,
    (∀ w : CmdWord, step (s.withFetchWord 32 w.toNat) = issueCommand w (s.withReply .done)) ∧
    ∀ i : Instr, i.wellFormed = true → issueCommand (encode i) s = exec i (s.withCmd (encode i))

/-- A host write of a word to CMD stores it there, even if the command fails, and a host read of CMD then returns it
(10_state.md R24, 30_encoding.md R84). -/
def Obligations.CommandRegisterHoldsLastWord : Prop :=
  ∀ (s : State) (w : CmdWord), ∃ t, step (s.withFetchWord 32 w.toNat) = .next t ∧ t.cmd = w ∧
    step (t.withQueue (.regRead 0x18 32 :: t.queue)) = .next (t.withReply (.half w))

/-- With no host action pending the block waits and its state persists (70_reset_and_hazards.md R232,
60_exceptions.md R217). That waiting is a step without effect is the model's choice (log 1). -/
def Obligations.IdleBlockWaits : Prop :=
  ∀ s : State, s.queue = [] → step s = .next s

/-! ### Invariants -/

/-- From every state with OFF <= CAP, a buffer in canonical form below CAP and a legal status, a step gives such a
state (10_state.md R25 to R29; 20_memory.md R51). The canonical form is the model's (log 3). -/
def Obligations.StepKeepsInvariant : Prop :=
  ∀ s t : State, s.Inv → step s = .next t → t.Inv

/-- The state after reset meets the invariant, whatever CAP is (70_reset_and_hazards.md R230, R231). -/
def Obligations.ResetMeetsInvariant : Prop := State.reset.Inv

/-- OFF <= CAP at all times: every step preserves it (10_state.md R29). -/
def Obligations.OffsetStaysWithinCapacity : Prop :=
  ∀ s t : State, s.off.toNat ≤ s.cap.toNat → step s = .next t → t.off.toNat ≤ t.cap.toNat

/-- CAP does not change during a run, of any number of steps from any state (10_state.md R28). -/
def Obligations.CapacityConstantAlongRuns : Prop :=
  ∀ (k : Nat) (s t : State), Host.Core.run Sys2Proof.core k s = .next t → t.cap = s.cap

/-! ### How a command ends -/

/-- Every word written to CMD ends in success or in exactly one error kind, never a stop, and IllegalCommand is the
error of exactly the words outside the table (60_exceptions.md R200, R201). -/
def Obligations.EveryWordEndsInSuccessOrOneError : Prop :=
  ∀ (s : State) (w : CmdWord), ∃ t, issueCommand w s = .next t ∧
    (t.st.toNat % 16 = 0 ∨ t.st.toNat % 16 = 1 ∨ t.st.toNat % 16 = 2 ∨ t.st.toNat % 16 = 4 ∨ t.st.toNat % 16 = 5) ∧
    (t.st.toNat % 16 = 5 ↔ ¬ MatchesRow w)

/-- UnsupportedForm is a legal error kind, of code 3, and no command produces it: reset does not show it, and no step
makes it appear (60_exceptions.md R203). -/
def Obligations.UnsupportedFormNeverProduced : Prop :=
  ErrorKind.unsupportedForm.code = 3 ∧ State.reset.err ≠ 3 ∧
    ∀ s t : State, s.err ≠ 3 → step s = .next t → t.err ≠ 3

/-- The error commit: whatever word ends in error leaves R0 to R3 and ST.NB zero and the code of its kind in ST.ERR,
keeps the word in CMD, and leaves OFF, BUF, A, B and C (60_exceptions.md R204). -/
def Obligations.ErrorLeavesOnlyItsStatus : Prop :=
  ∀ (s : State) (w : CmdWord), ∃ t, issueCommand w s = .next t ∧
    (t.err ≠ 0 → ∃ e : ErrorKind, t.err = e.code ∧ EndsInError (s.withCmd w) t e.code.toNat)

/-- ST.NB is the number of bytes the command moved: OFF advances by it, no byte outside the bytes from OFF on changes,
it is at most 8, and 0 after an error and after a command that moves none (10_state.md R26, 20_memory.md R62). -/
def Obligations.StatusCountsBytesMoved : Prop :=
  ∀ (i : Instr) (s : State), ∃ t, exec i s = .next t ∧ t.nb.toNat ≤ 8 ∧
    t.off.toNat = s.off.toNat + t.nb.toNat ∧
    (∀ o, (o < s.off.toNat ∨ s.off.toNat + t.nb.toNat ≤ o) → t.byteAt o = s.byteAt o) ∧
    (t.err ≠ 0 → t.nb = 0) ∧ (i.movesNoBytes = true → t.nb = 0)

/-- No command writes A, B, C, CMD or CAP: it answers a next state in which they are as they were
(10_state.md R20, R28; section 1, column "written by the block"). -/
def Obligations.CommandsKeepOperandsAndCapacity : Prop :=
  ∀ (i : Instr) (s : State), ∃ t, exec i s = .next t ∧ SameHostSide s t

/-- A command ignores the operand registers it does not name: other values there change nothing of what it leaves
(10_state.md R21). -/
def Obligations.UnnamedOperandsAreIgnored : Prop :=
  ∀ (i : Instr) (s : State) (va vb vc : Word), ∃ t, exec i s = .next t ∧
    exec i (((s.withA (if i.namesA = true then s.a else va)).withB (if i.namesBC = true then s.b else vb)).withC
        (if i.namesBC = true then s.c else vc)) =
      .next (((t.withA (if i.namesA = true then s.a else va)).withB (if i.namesBC = true then s.b else vb)).withC
        (if i.namesBC = true then s.c else vc))

/-- A command's outcome depends only on A, B, C, OFF, CAP and the bytes of BUF: from two states that agree on those it
leaves the same results, status, offset and bytes (60_exceptions.md R208, 10_state.md R32). -/
def Obligations.OutcomeDependsOnlyOnOperandsAndCursor : Prop :=
  ∀ (i : Instr) (s u : State), u.a = s.a → u.b = s.b → u.c = s.c → u.off = s.off → u.cap = s.cap →
    (∀ o, u.byteAt o = s.byteAt o) →
    ∃ t v, exec i s = .next t ∧ exec i u = .next v ∧ v.r0 = t.r0 ∧ v.r1 = t.r1 ∧ v.r2 = t.r2 ∧ v.r3 = t.r3 ∧
      v.st = t.st ∧ v.off = t.off ∧ ∀ o, v.byteAt o = t.byteAt o

/-! ### IEEE-754 -/

/-- FDEC64 (40_ieee754.md R104): sign, biased exponent, mantissa and class of the pattern in A. -/
def Obligations.Fdec64GivesFieldsAndClass : Prop :=
  decode 0x00000010 = .ok .fdec64 ∧
  ∀ s : State, ∃ t, exec .fdec64 s = .next t ∧
    CompletesWith s t (s.a.toNat / 2 ^ 63) (s.a.toNat / 2 ^ 52 % 2 ^ 11) (s.a.toNat % 2 ^ 52)
      (classNumber 11 (s.a.toNat / 2 ^ 52 % 2 ^ 11) (s.a.toNat % 2 ^ 52))

/-- FREC64 (40_ieee754.md R105): the pattern of A[0], B and C, or Overflow. -/
def Obligations.Frec64GivesPatternOrOverflow : Prop :=
  decode 0x00000011 = .ok .frec64 ∧
  ∀ s : State,
    (s.b.toNat < 2 ^ 11 → s.c.toNat < 2 ^ 52 → ∃ t, exec .frec64 s = .next t ∧
      CompletesWith s t (s.a.toNat % 2 * 2 ^ 63 + s.b.toNat * 2 ^ 52 + s.c.toNat) 0 0 0) ∧
    (2 ^ 11 ≤ s.b.toNat ∨ 2 ^ 52 ≤ s.c.toNat → ∃ t, exec .frec64 s = .next t ∧ EndsInError s t 4)

/-- FDEC32 (40_ieee754.md R106): sign, biased exponent, mantissa and class of the pattern in A[31:0]. -/
def Obligations.Fdec32GivesFieldsAndClass : Prop :=
  decode 0x00000012 = .ok .fdec32 ∧
  ∀ s : State, ∃ t, exec .fdec32 s = .next t ∧
    CompletesWith s t (s.a.toNat % 2 ^ 32 / 2 ^ 31) (s.a.toNat % 2 ^ 32 / 2 ^ 23 % 2 ^ 8) (s.a.toNat % 2 ^ 23)
      (classNumber 8 (s.a.toNat % 2 ^ 32 / 2 ^ 23 % 2 ^ 8) (s.a.toNat % 2 ^ 23))

/-- FREC32 (40_ieee754.md R107): the 32-bit pattern of A[0], B and C, or Overflow. -/
def Obligations.Frec32GivesPatternOrOverflow : Prop :=
  decode 0x00000013 = .ok .frec32 ∧
  ∀ s : State,
    (s.b.toNat < 2 ^ 8 → s.c.toNat < 2 ^ 23 → ∃ t, exec .frec32 s = .next t ∧
      CompletesWith s t (s.a.toNat % 2 * 2 ^ 31 + s.b.toNat * 2 ^ 23 + s.c.toNat) 0 0 0) ∧
    (2 ^ 8 ≤ s.b.toNat ∨ 2 ^ 23 ≤ s.c.toNat → ∃ t, exec .frec32 s = .next t ∧ EndsInError s t 4)

/-- The round trips of decomposition and recomposition, both ways and in both formats, the host writing R0 to R2 back
into A to C (40_ieee754.md R108, a law the spec derives from R104 to R107). -/
def Obligations.FloatFieldsRoundTrip : Prop :=
  (∀ s : State, ∃ t u, exec .fdec64 s = .next t ∧
    exec .frec64 (((t.withA t.r0).withB t.r1).withC t.r2) = .next u ∧ u.err = 0 ∧ u.r0 = s.a) ∧
  (∀ s : State, s.b.toNat < 2 ^ 11 → s.c.toNat < 2 ^ 52 → ∃ t u, exec .frec64 s = .next t ∧ t.err = 0 ∧
    exec .fdec64 (t.withA t.r0) = .next u ∧ u.r0.toNat = s.a.toNat % 2 ∧ u.r1 = s.b ∧ u.r2 = s.c) ∧
  (∀ s : State, ∃ t u, exec .fdec32 s = .next t ∧
    exec .frec32 (((t.withA t.r0).withB t.r1).withC t.r2) = .next u ∧ u.err = 0 ∧ u.r0.toNat = s.a.toNat % 2 ^ 32) ∧
  (∀ s : State, s.b.toNat < 2 ^ 8 → s.c.toNat < 2 ^ 23 → ∃ t u, exec .frec32 s = .next t ∧ t.err = 0 ∧
    exec .fdec32 (t.withA t.r0) = .next u ∧ u.r0.toNat = s.a.toNat % 2 ∧ u.r1 = s.b ∧ u.r2 = s.c)

/-! ### Minimal width -/

/-- MLENU (41_minwidth.md R120, R124): R0 is the smallest byte count in 1 to 8 into which A fits. -/
def Obligations.MlenuGivesMinimalLength : Prop :=
  decode 0x00000020 = .ok .mlenu ∧
  ∀ s : State, ∃ t n, exec .mlenu s = .next t ∧ IsMinimalUnsigned s.a.toNat n ∧ CompletesWith s t n 0 0 0

/-- MLENS (41_minwidth.md R121, R125): R0 is the smallest byte count in 1 to 8 whose two's-complement range holds A. -/
def Obligations.MlensGivesMinimalSignedLength : Prop :=
  decode 0x00000021 = .ok .mlens ∧
  ∀ s : State, ∃ t n, exec .mlens s = .next t ∧ IsMinimalSigned s.a.toInt n ∧ CompletesWith s t n 0 0 0

/-- WRBE n (41_minwidth.md R126): the n low-order bytes of A at OFF, most significant first; InvalidLength before
InsufficientBuffer. -/
def Obligations.WrbeStoresBigEndian : Prop :=
  (∀ n, n ≤ 15 → decode (BitVec.ofNat 32 (0x22 + 256 * n)) = .ok (.wrbe n)) ∧
  ∀ (s : State) (n : Nat),
    (1 ≤ n → n ≤ 8 → Fits s n → ∃ t, exec (.wrbe n) s = .next t ∧
      Stored s t n fun i => s.a.toNat / 256 ^ (n - 1 - i) % 256) ∧
    (n = 0 ∨ 9 ≤ n → ∃ t, exec (.wrbe n) s = .next t ∧ EndsInError s t 2) ∧
    (1 ≤ n → n ≤ 8 → ¬ Fits s n → ∃ t, exec (.wrbe n) s = .next t ∧ EndsInError s t 1)

/-- WRLE n (41_minwidth.md R127): the n low-order bytes of A at OFF, least significant first. -/
def Obligations.WrleStoresLittleEndian : Prop :=
  (∀ n, n ≤ 15 → decode (BitVec.ofNat 32 (0x23 + 256 * n)) = .ok (.wrle n)) ∧
  ∀ (s : State) (n : Nat),
    (1 ≤ n → n ≤ 8 → Fits s n → ∃ t, exec (.wrle n) s = .next t ∧
      Stored s t n fun i => s.a.toNat / 256 ^ i % 256) ∧
    (n = 0 ∨ 9 ≤ n → ∃ t, exec (.wrle n) s = .next t ∧ EndsInError s t 2) ∧
    (1 ≤ n → n ≤ 8 → ¬ Fits s n → ∃ t, exec (.wrle n) s = .next t ∧ EndsInError s t 1)

/-- WRBEMU (41_minwidth.md R128): A in its minimal unsigned length, big-endian. -/
def Obligations.WrbemuStoresMinimalUnsigned : Prop :=
  decode 0x00000024 = .ok .wrbemu ∧
  ∀ (s : State) (n : Nat), IsMinimalUnsigned s.a.toNat n →
    (Fits s n → ∃ t, exec .wrbemu s = .next t ∧ Stored s t n fun i => s.a.toNat / 256 ^ (n - 1 - i) % 256) ∧
    (¬ Fits s n → ∃ t, exec .wrbemu s = .next t ∧ EndsInError s t 1)

/-- WRBEMS (41_minwidth.md R129): A in its minimal signed length, big-endian. -/
def Obligations.WrbemsStoresMinimalSigned : Prop :=
  decode 0x00000025 = .ok .wrbems ∧
  ∀ (s : State) (n : Nat), IsMinimalSigned s.a.toInt n →
    (Fits s n → ∃ t, exec .wrbems s = .next t ∧ Stored s t n fun i => s.a.toNat / 256 ^ (n - 1 - i) % 256) ∧
    (¬ Fits s n → ∃ t, exec .wrbems s = .next t ∧ EndsInError s t 1)

/-- WRLEMU (41_minwidth.md R130): A in its minimal unsigned length, little-endian. -/
def Obligations.WrlemuStoresMinimalUnsigned : Prop :=
  decode 0x00000026 = .ok .wrlemu ∧
  ∀ (s : State) (n : Nat), IsMinimalUnsigned s.a.toNat n →
    (Fits s n → ∃ t, exec .wrlemu s = .next t ∧ Stored s t n fun i => s.a.toNat / 256 ^ i % 256) ∧
    (¬ Fits s n → ∃ t, exec .wrlemu s = .next t ∧ EndsInError s t 1)

/-- WRLEMS (41_minwidth.md R131): A in its minimal signed length, little-endian. -/
def Obligations.WrlemsStoresMinimalSigned : Prop :=
  decode 0x00000027 = .ok .wrlems ∧
  ∀ (s : State) (n : Nat), IsMinimalSigned s.a.toInt n →
    (Fits s n → ∃ t, exec .wrlems s = .next t ∧ Stored s t n fun i => s.a.toNat / 256 ^ i % 256) ∧
    (¬ Fits s n → ∃ t, exec .wrlems s = .next t ∧ EndsInError s t 1)

/-- RDBEU n (41_minwidth.md R132): the big-endian value of n bytes; n = 0 is legal; InvalidLength before
InsufficientBuffer. -/
def Obligations.RdbeuReadsBigEndian : Prop :=
  (∀ n, n ≤ 15 → decode (BitVec.ofNat 32 (0x28 + 256 * n)) = .ok (.rdbeu n)) ∧
  ∀ (s : State) (n : Nat),
    (n ≤ 8 → Fits s n → ∃ t, exec (.rdbeu n) s = .next t ∧ Consumed s t n (s.beValue s.off.toNat n)) ∧
    (9 ≤ n → ∃ t, exec (.rdbeu n) s = .next t ∧ EndsInError s t 2) ∧
    (n ≤ 8 → ¬ Fits s n → ∃ t, exec (.rdbeu n) s = .next t ∧ EndsInError s t 1)

/-- RDBES n (41_minwidth.md R133): the big-endian value of n bytes, sign-extended from bit 8n - 1. -/
def Obligations.RdbesReadsBigEndianSigned : Prop :=
  (∀ n, n ≤ 15 → decode (BitVec.ofNat 32 (0x29 + 256 * n)) = .ok (.rdbes n)) ∧
  ∀ (s : State) (n : Nat),
    (n ≤ 8 → Fits s n → ∃ t, exec (.rdbes n) s = .next t ∧
      Consumed s t n (signExtendedValue n (s.beValue s.off.toNat n))) ∧
    (9 ≤ n → ∃ t, exec (.rdbes n) s = .next t ∧ EndsInError s t 2) ∧
    (n ≤ 8 → ¬ Fits s n → ∃ t, exec (.rdbes n) s = .next t ∧ EndsInError s t 1)

/-- RDLEU n (41_minwidth.md R134): the little-endian value of n bytes. -/
def Obligations.RdleuReadsLittleEndian : Prop :=
  (∀ n, n ≤ 15 → decode (BitVec.ofNat 32 (0x2A + 256 * n)) = .ok (.rdleu n)) ∧
  ∀ (s : State) (n : Nat),
    (n ≤ 8 → Fits s n → ∃ t, exec (.rdleu n) s = .next t ∧ Consumed s t n (s.leValue s.off.toNat n)) ∧
    (9 ≤ n → ∃ t, exec (.rdleu n) s = .next t ∧ EndsInError s t 2) ∧
    (n ≤ 8 → ¬ Fits s n → ∃ t, exec (.rdleu n) s = .next t ∧ EndsInError s t 1)

/-- RDLES n (41_minwidth.md R135): the little-endian value of n bytes, sign-extended from bit 8n - 1. -/
def Obligations.RdlesReadsLittleEndianSigned : Prop :=
  (∀ n, n ≤ 15 → decode (BitVec.ofNat 32 (0x2B + 256 * n)) = .ok (.rdles n)) ∧
  ∀ (s : State) (n : Nat),
    (n ≤ 8 → Fits s n → ∃ t, exec (.rdles n) s = .next t ∧
      Consumed s t n (signExtendedValue n (s.leValue s.off.toNat n))) ∧
    (9 ≤ n → ∃ t, exec (.rdles n) s = .next t ∧ EndsInError s t 2) ∧
    (n ≤ 8 → ¬ Fits s n → ∃ t, exec (.rdles n) s = .next t ∧ EndsInError s t 1)

/-- The length commands and the minimal writes of the same A agree: no write gives or moves more bytes than the length
command's R0, the value of `minimal_len` or `minimal_len_signed`, and where the write completes, its R0, its ST.NB and
its advance of OFF equal it (41_minwidth.md R136, a law the spec derives from R120 to R122). -/
def Obligations.LengthCommandsAgreeWithWrites : Prop :=
  ∀ s : State,
    (∃ t, exec .mlenu s = .next t ∧ t.r0.toNat = minimalLen s.a ∧
      ∀ i ∈ [Instr.wrbemu, Instr.wrlemu], ∃ u, exec i s = .next u ∧ u.r0.toNat ≤ t.r0.toNat ∧ u.nb.toNat ≤ t.r0.toNat ∧
        (Fits s (minimalLen s.a) → u.err = 0 ∧ u.r0 = t.r0 ∧ u.nb.toNat = t.r0.toNat ∧
          u.off.toNat = s.off.toNat + t.r0.toNat)) ∧
    (∃ t, exec .mlens s = .next t ∧ t.r0.toNat = minimalLenSigned s.a ∧
      ∀ i ∈ [Instr.wrbems, Instr.wrlems], ∃ u, exec i s = .next u ∧ u.r0.toNat ≤ t.r0.toNat ∧ u.nb.toNat ≤ t.r0.toNat ∧
        (Fits s (minimalLenSigned s.a) → u.err = 0 ∧ u.r0 = t.r0 ∧ u.nb.toNat = t.r0.toNat ∧
          u.off.toNat = s.off.toNat + t.r0.toNat))

/-- A minimal write, a seek back and a read of as many bytes with the same order and signedness give A back, for every
A (41_minwidth.md R137, a law the spec derives from R121 to R123). -/
def Obligations.MinimalWritesReadBack : Prop :=
  ∀ s : State,
    (Fits s (minimalLenSigned s.a) →
      (∃ t u, exec .wrbems s = .next t ∧ exec (.rdbes t.r0.toNat) (t.withOff s.off) = .next u ∧ u.err = 0 ∧ u.r0 = s.a) ∧
      (∃ t u, exec .wrlems s = .next t ∧ exec (.rdles t.r0.toNat) (t.withOff s.off) = .next u ∧ u.err = 0 ∧ u.r0 = s.a)) ∧
    (Fits s (minimalLen s.a) →
      (∃ t u, exec .wrbemu s = .next t ∧ exec (.rdbeu t.r0.toNat) (t.withOff s.off) = .next u ∧ u.err = 0 ∧ u.r0 = s.a) ∧
      (∃ t u, exec .wrlemu s = .next t ∧ exec (.rdleu t.r0.toNat) (t.withOff s.off) = .next u ∧ u.err = 0 ∧ u.r0 = s.a))

/-- WRBE and WRLE write the same bytes in reverse order of each other, and every big-endian command has the status
(so the errors and the length) and the OFF change of its little-endian twin (41_minwidth.md R138, a law the spec
derives from R122 and R123). -/
def Obligations.ByteOrdersMirrorEachOther : Prop :=
  ∀ (s : State) (n : Nat),
    (1 ≤ n → n ≤ 8 → Fits s n → ∃ t u, exec (.wrbe n) s = .next t ∧ exec (.wrle n) s = .next u ∧
      ∀ i, i < n → t.byteAt (s.off.toNat + i) = u.byteAt (s.off.toNat + (n - 1 - i))) ∧
    ∀ p ∈ [(Instr.wrbe n, Instr.wrle n), (Instr.wrbemu, Instr.wrlemu), (Instr.wrbems, Instr.wrlems),
        (Instr.rdbeu n, Instr.rdleu n), (Instr.rdbes n, Instr.rdles n)],
      ∃ t u, exec p.1 s = .next t ∧ exec p.2 s = .next u ∧ t.st = u.st ∧ t.off = u.off

/-- WRLE with N = 2 of 0x1234, a seek back and RDBEU with N = 2 give 0x3412 (20_memory.md R60). -/
def Obligations.MixedByteOrderAccessIsByteExact : Prop :=
  ∀ s : State, Fits s 2 → ∃ t u, exec (.wrle 2) (s.withA 0x1234) = .next t ∧
    exec (.rdbeu 2) (t.withOff s.off) = .next u ∧ u.err = 0 ∧ u.r0 = 0x3412

/-! ### LEB128 -/

/-- LEBLEN (42_leb128.md R161, R163): the smallest number of groups that holds A, or InvalidLength from 2^56 on. -/
def Obligations.LeblenGivesGroupCount : Prop :=
  decode 0x00000030 = .ok .leblen ∧
  ∀ s : State,
    (s.a.toNat < 2 ^ 56 → ∃ t n, exec .leblen s = .next t ∧ IsVarintLength s.a.toNat n ∧ CompletesWith s t n 0 0 0) ∧
    (2 ^ 56 ≤ s.a.toNat → ∃ t, exec .leblen s = .next t ∧ EndsInError s t 2)

/-- LEBWR (42_leb128.md R164): the groups of A, least significant first, a continuation bit in all but the last;
InvalidLength before InsufficientBuffer. -/
def Obligations.LebwrStoresGroups : Prop :=
  decode 0x00000031 = .ok .lebwr ∧
  ∀ s : State,
    (∀ n, IsVarintLength s.a.toNat n →
      (Fits s n → ∃ t, exec .lebwr s = .next t ∧
        Stored s t n fun i => s.a.toNat / 128 ^ i % 128 + (if i + 1 < n then 128 else 0)) ∧
      (¬ Fits s n → ∃ t, exec .lebwr s = .next t ∧ EndsInError s t 1)) ∧
    (2 ^ 56 ≤ s.a.toNat → ∃ t, exec .lebwr s = .next t ∧ EndsInError s t 2)

/-- LEBRD (42_leb128.md R165): k + 1 bytes up to the first whose bit 7 is clear; InsufficientBuffer where the bytes run
out before it; InvalidLength after eight bytes whose bit 7 is set, whether or not a ninth exists. -/
def Obligations.LebrdReadsGroups : Prop :=
  decode 0x00000032 = .ok .lebrd ∧
  ∀ s : State,
    (∀ k, k < 8 → Fits s (k + 1) → (∀ j, j < k → 128 ≤ (s.byteAt (s.off.toNat + j)).toNat) →
      (s.byteAt (s.off.toNat + k)).toNat < 128 →
      ∃ t, exec .lebrd s = .next t ∧ Consumed s t (k + 1) (s.lebValue s.off.toNat (k + 1))) ∧
    (∀ k, k < 8 → ¬ Fits s (k + 1) → (∀ j, j < k → 128 ≤ (s.byteAt (s.off.toNat + j)).toNat) →
      ∃ t, exec .lebrd s = .next t ∧ EndsInError s t 1) ∧
    (Fits s 8 → (∀ j, j < 8 → 128 ≤ (s.byteAt (s.off.toNat + j)).toNat) →
      ∃ t, exec .lebrd s = .next t ∧ EndsInError s t 2)

/-- LEBWR, a seek back and LEBRD give A back, with the lengths of LEBWR, LEBRD and LEBLEN equal; and no read that gives
A consumed fewer bytes than LEBWR wrote (42_leb128.md R166, a law the spec derives from R161, R164 and R165). -/
def Obligations.Leb128RoundTripIsMinimal : Prop :=
  ∀ s : State, ∀ n, IsVarintLength s.a.toNat n → Fits s n →
    ∃ t u v, exec .lebwr s = .next t ∧ exec .lebrd (t.withOff s.off) = .next u ∧ exec .leblen s = .next v ∧
      t.err = 0 ∧ u.err = 0 ∧ v.err = 0 ∧ u.r0 = s.a ∧ u.r1 = t.r0 ∧ t.r0 = v.r0 ∧
      ∀ x y : State, exec .lebrd x = .next y → y.err = 0 → y.r0 = s.a → t.r0.toNat ≤ y.r1.toNat

/-! ### VLU -/

/-- VLULEN (43_vlu.md R181, R183): the LEB128 length, or InvalidLength from 2^56 on. -/
def Obligations.VlulenGivesGroupCount : Prop :=
  decode 0x00000038 = .ok .vlulen ∧
  ∀ s : State,
    (s.a.toNat < 2 ^ 56 → ∃ t n, exec .vlulen s = .next t ∧ IsVarintLength s.a.toNat n ∧ CompletesWith s t n 0 0 0) ∧
    (2 ^ 56 ≤ s.a.toNat → ∃ t, exec .vlulen s = .next t ∧ EndsInError s t 2)

/-- VLUWR (43_vlu.md R180, R184): the word A * 2^n + (2^(n-1) - 1) in n little-endian bytes; InvalidLength before
InsufficientBuffer. -/
def Obligations.VluwrStoresLengthPrefixedWord : Prop :=
  decode 0x00000039 = .ok .vluwr ∧
  ∀ s : State,
    (∀ n, IsVarintLength s.a.toNat n →
      (Fits s n → ∃ t, exec .vluwr s = .next t ∧
        Stored s t n fun i => (s.a.toNat * 2 ^ n + (2 ^ (n - 1) - 1)) / 256 ^ i % 256) ∧
      (¬ Fits s n → ∃ t, exec .vluwr s = .next t ∧ EndsInError s t 1)) ∧
    (2 ^ 56 ≤ s.a.toNat → ∃ t, exec .vluwr s = .next t ∧ EndsInError s t 2)

/-- VLURD (43_vlu.md R182, R185): a first byte that ends in k one bits and a zero bit gives the little-endian word of
k + 1 bytes without its low k + 1 bits; no first byte is InsufficientBuffer, a first byte 0xFF is InvalidLength, too
few further bytes is InsufficientBuffer. -/
def Obligations.VlurdReadsLengthPrefixedWord : Prop :=
  decode 0x0000003A = .ok .vlurd ∧
  ∀ s : State,
    (∀ k, k < 8 → Fits s (k + 1) → (s.byteAt s.off.toNat).toNat % 2 ^ (k + 1) = 2 ^ k - 1 →
      ∃ t, exec .vlurd s = .next t ∧ Consumed s t (k + 1) (s.leValue s.off.toNat (k + 1) / 2 ^ (k + 1))) ∧
    (¬ Fits s 1 → ∃ t, exec .vlurd s = .next t ∧ EndsInError s t 1) ∧
    (Fits s 1 → (s.byteAt s.off.toNat).toNat = 255 → ∃ t, exec .vlurd s = .next t ∧ EndsInError s t 2) ∧
    (∀ k, k < 8 → Fits s 1 → ¬ Fits s (k + 1) → (s.byteAt s.off.toNat).toNat % 2 ^ (k + 1) = 2 ^ k - 1 →
      ∃ t, exec .vlurd s = .next t ∧ EndsInError s t 1)

/-- VLUWR, a seek back and VLURD give A back, with the lengths of VLUWR, VLURD and VLULEN equal, and VLUWR writes as
many bytes as LEBWR (43_vlu.md R186, a law the spec derives from R180, R181, R184 and R185). -/
def Obligations.VluRoundTripAgreesWithLeb128 : Prop :=
  ∀ s : State, ∀ n, IsVarintLength s.a.toNat n → Fits s n →
    ∃ t u v x, exec .vluwr s = .next t ∧ exec .vlurd (t.withOff s.off) = .next u ∧ exec .vlulen s = .next v ∧
      exec .lebwr s = .next x ∧ t.err = 0 ∧ u.err = 0 ∧ v.err = 0 ∧ x.err = 0 ∧
      u.r0 = s.a ∧ u.r1 = t.r0 ∧ t.r0 = v.r0 ∧ t.nb = x.nb ∧ t.off = x.off

/-! ### The host's port -/

/-- A host write of A, B or C sets that register and nothing else, and a host write to ST or to R0 to R3 has no effect
(20_memory.md R52, 10_state.md R20, R23). The acknowledgement in the reply is the model's (log 5). -/
def Obligations.HostWritesReachOnlyOperands : Prop :=
  ∀ (s : State) (v : Word),
    step (s.withQueue (.regWrite 0x00 64 v :: s.queue)) = .next ((s.withReply .done).withA v) ∧
    step (s.withQueue (.regWrite 0x08 64 v :: s.queue)) = .next ((s.withReply .done).withB v) ∧
    step (s.withQueue (.regWrite 0x10 64 v :: s.queue)) = .next ((s.withReply .done).withC v) ∧
    step (s.withQueue (.regWrite 0x1C 32 v :: s.queue)) = .next (s.withReply .done) ∧
    step (s.withQueue (.regWrite 0x20 64 v :: s.queue)) = .next (s.withReply .done) ∧
    step (s.withQueue (.regWrite 0x28 64 v :: s.queue)) = .next (s.withReply .done) ∧
    step (s.withQueue (.regWrite 0x30 64 v :: s.queue)) = .next (s.withReply .done) ∧
    step (s.withQueue (.regWrite 0x38 64 v :: s.queue)) = .next (s.withReply .done)

/-- A host read of each register answers its value and changes nothing of the block (20_memory.md R52, R64). That the
value shows in the reply is the model's (log 5). -/
def Obligations.HostReadsAnswerAndChangeNothing : Prop :=
  ∀ s : State,
    step (s.withQueue (.regRead 0x00 64 :: s.queue)) = .next (s.withReply (.word s.a)) ∧
    step (s.withQueue (.regRead 0x08 64 :: s.queue)) = .next (s.withReply (.word s.b)) ∧
    step (s.withQueue (.regRead 0x10 64 :: s.queue)) = .next (s.withReply (.word s.c)) ∧
    step (s.withQueue (.regRead 0x18 32 :: s.queue)) = .next (s.withReply (.half s.cmd)) ∧
    step (s.withQueue (.regRead 0x1C 32 :: s.queue)) = .next (s.withReply (.half s.st)) ∧
    step (s.withQueue (.regRead 0x20 64 :: s.queue)) = .next (s.withReply (.word s.r0)) ∧
    step (s.withQueue (.regRead 0x28 64 :: s.queue)) = .next (s.withReply (.word s.r1)) ∧
    step (s.withQueue (.regRead 0x30 64 :: s.queue)) = .next (s.withReply (.word s.r2)) ∧
    step (s.withQueue (.regRead 0x38 64 :: s.queue)) = .next (s.withReply (.word s.r3))

/-- A whole-register access completes, and every other access is refused, whether a read or a write
(20_memory.md R53). -/
def Obligations.OnlyWholeRegisterAccessesComplete : Prop :=
  ∀ (s : State) (offset : Word) (bits : Nat) (v : Word),
    (bits = 64 ∧ offset.toNat ∈ [0x00, 0x08, 0x10, 0x20, 0x28, 0x30, 0x38] ∨ bits = 32 ∧ offset.toNat ∈ [0x18, 0x1C] →
      (∃ t, step (s.withQueue (.regRead offset bits :: s.queue)) = .next t) ∧
      ∃ t, step (s.withQueue (.regWrite offset bits v :: s.queue)) = .next t) ∧
    (¬ (bits = 64 ∧ offset.toNat ∈ [0x00, 0x08, 0x10, 0x20, 0x28, 0x30, 0x38] ∨
        bits = 32 ∧ offset.toNat ∈ [0x18, 0x1C]) →
      step (s.withQueue (.regRead offset bits :: s.queue)) = .refused (.registerAccess offset bits) ∧
      step (s.withQueue (.regWrite offset bits v :: s.queue)) = .refused (.registerAccess offset bits))

/-- On the host's address map the block stands at `VNB_BASE`: an access there is the access at its block offset
(20_memory.md R52). The wrap of addresses modulo 2^64 is the model's choice (log 4). -/
def Obligations.BusAccessesReachBlockOffsets : Prop :=
  ∀ (s : State) (q : List HostAction) (offset : Word) (bits : Nat) (v : Word),
    step (s.withQueue (.busWrite (Config.vnbBase + offset) bits v :: q)) =
      step (s.withQueue (.regWrite offset bits v :: q)) ∧
    step (s.withQueue (.busRead (Config.vnbBase + offset) bits :: q)) =
      step (s.withQueue (.regRead offset bits :: q))

/-- The cursor operations (20_memory.md R65, R66, R67): `reset()` sets OFF to 0; `seek(o)` sets OFF to o up to CAP and
otherwise fails with OFF unchanged; `offset()` and `remaining()` answer and change nothing; none touches BUF. -/
def Obligations.CursorOperationsMoveOnlyOffset : Prop :=
  ∀ s : State,
    step (s.withQueue (.cursorReset :: s.queue)) = .next ((s.withReply .done).withOff 0) ∧
    (∀ o : Word, o.toNat ≤ s.cap.toNat →
      step (s.withQueue (.seek o :: s.queue)) = .next ((s.withReply .done).withOff o)) ∧
    (∀ o : Word, s.cap.toNat < o.toNat → step (s.withQueue (.seek o :: s.queue)) = .next (s.withReply .failed)) ∧
    step (s.withQueue (.offset :: s.queue)) = .next (s.withReply (.word s.off)) ∧
    (s.off.toNat ≤ s.cap.toNat →
      step (s.withQueue (.remaining :: s.queue)) = .next (s.withReply (.span s.off (s.cap - s.off))))

/-- The host's direct accesses to BUF below CAP read and write one byte and change neither OFF nor any register nor
another byte (20_memory.md R68). At or above CAP, where no offset exists, the model faults (its choice, log 7). -/
def Obligations.DirectBufferAccessesTouchOneByte : Prop :=
  ∀ (s : State) (o : Word) (b : Byte),
    (o.toNat < s.cap.toNat →
      (∃ t, step (s.withQueue (.poke o b :: s.queue)) = .next t ∧ SameHostSide (s.withReply .done) t ∧
        t.off = s.off ∧ t.st = s.st ∧ Results t s.r0.toNat s.r1.toNat s.r2.toNat s.r3.toNat ∧
        t.byteAt o.toNat = b ∧ ∀ o' : Nat, o' ≠ o.toNat → t.byteAt o' = s.byteAt o') ∧
      step (s.withQueue (.peek o :: s.queue)) = .next (s.withReply (.byte (s.byteAt o.toNat)))) ∧
    (s.cap.toNat ≤ o.toNat →
      step (s.withQueue (.poke o b :: s.queue)) = .fault (.bufferOffset o) ∧
      step (s.withQueue (.peek o :: s.queue)) = .fault (.bufferOffset o))

/-- Another agent that touches the cursor while a command runs is a fault (70_reset_and_hazards.md R239,
20_memory.md R72). The form of that action is the model's (log 8). -/
def Obligations.ContendedCommandFaults : Prop :=
  ∀ (s : State) (w : CmdWord), step (s.withQueue (.contendedCommand w :: s.queue)) = .fault .sharedCursor

/-- After reset every register holds 0 and OFF is 0, CAP is the run's parameter and every byte of BUF is a draw; and a
reset of the block is a step that brings the registers and OFF there while CAP and every byte stay
(70_reset_and_hazards.md R230, R231, R233). That a reset of the block is an action of the host is the model's (log 14). -/
def Obligations.ResetZeroesRegistersAndKeepsBuffer : Prop :=
  (Results State.reset 0 0 0 0 ∧ Status State.reset 0 0 ∧ State.reset.a = 0 ∧ State.reset.b = 0 ∧ State.reset.c = 0 ∧
    State.reset.cmd = 0 ∧ State.reset.off = 0 ∧ State.reset.cap = Config.cap ∧
    ∀ o, State.reset.byteAt o = Config.bufInit o) ∧
  ∀ s : State, ∃ t, step (s.withQueue (.vnbReset :: s.queue)) = .next t ∧ Results t 0 0 0 0 ∧ Status t 0 0 ∧ t.a = 0 ∧
    t.b = 0 ∧ t.c = 0 ∧ t.cmd = 0 ∧ t.off = 0 ∧ t.cap = s.cap ∧ t.queue = s.queue ∧ ∀ o, t.byteAt o = s.byteAt o

/-! ### The assembler's notation -/

/-- A well-formed command's text, in upper or lower case, assembles to that command (30_encoding.md R89). The spacing
is the model's choice (log 12). -/
def Obligations.AssemblerReadsPrintedCommands : Prop :=
  ∀ i : Instr, i.wellFormed = true → assemble i.text = some i ∧ assemble (i.text.map Char.toLower) = some i
end

