-- ==== Sys2Proof/Laws/State.lean ====
section
/-!
SUPPORT. One lemma per field of State per named update, so that no later proof unfolds a record update; and what the
updates that leave BUF, CAP or OFF alone leave of the values computed from them.
-/

namespace Sys2Proof.Machine

variable (s : State)

/-! ### State.withCmd -/

@[simp] theorem State.withCmd_a (w : CmdWord) : (s.withCmd w).a = s.a := rfl
@[simp] theorem State.withCmd_b (w : CmdWord) : (s.withCmd w).b = s.b := rfl
@[simp] theorem State.withCmd_c (w : CmdWord) : (s.withCmd w).c = s.c := rfl
@[simp] theorem State.withCmd_cmd (w : CmdWord) : (s.withCmd w).cmd = w := rfl
@[simp] theorem State.withCmd_st (w : CmdWord) : (s.withCmd w).st = s.st := rfl
@[simp] theorem State.withCmd_r0 (w : CmdWord) : (s.withCmd w).r0 = s.r0 := rfl
@[simp] theorem State.withCmd_r1 (w : CmdWord) : (s.withCmd w).r1 = s.r1 := rfl
@[simp] theorem State.withCmd_r2 (w : CmdWord) : (s.withCmd w).r2 = s.r2 := rfl
@[simp] theorem State.withCmd_r3 (w : CmdWord) : (s.withCmd w).r3 = s.r3 := rfl
@[simp] theorem State.withCmd_cap (w : CmdWord) : (s.withCmd w).cap = s.cap := rfl
@[simp] theorem State.withCmd_off (w : CmdWord) : (s.withCmd w).off = s.off := rfl
@[simp] theorem State.withCmd_buf (w : CmdWord) : (s.withCmd w).buf = s.buf := rfl
@[simp] theorem State.withCmd_queue (w : CmdWord) : (s.withCmd w).queue = s.queue := rfl
@[simp] theorem State.withCmd_reply (w : CmdWord) : (s.withCmd w).reply = s.reply := rfl
@[simp] theorem State.withCmd_byteAt (w : CmdWord) (o : Nat) : (s.withCmd w).byteAt o = s.byteAt o := rfl
@[simp] theorem State.withCmd_remainingBytes (w : CmdWord) : (s.withCmd w).remainingBytes = s.remainingBytes := rfl
@[simp] theorem State.withCmd_checkCapacity (w : CmdWord) (n : Nat) : (s.withCmd w).checkCapacity n = s.checkCapacity n := rfl

/-! ### State.withA -/

@[simp] theorem State.withA_a (v : Word) : (s.withA v).a = v := rfl
@[simp] theorem State.withA_b (v : Word) : (s.withA v).b = s.b := rfl
@[simp] theorem State.withA_c (v : Word) : (s.withA v).c = s.c := rfl
@[simp] theorem State.withA_cmd (v : Word) : (s.withA v).cmd = s.cmd := rfl
@[simp] theorem State.withA_st (v : Word) : (s.withA v).st = s.st := rfl
@[simp] theorem State.withA_r0 (v : Word) : (s.withA v).r0 = s.r0 := rfl
@[simp] theorem State.withA_r1 (v : Word) : (s.withA v).r1 = s.r1 := rfl
@[simp] theorem State.withA_r2 (v : Word) : (s.withA v).r2 = s.r2 := rfl
@[simp] theorem State.withA_r3 (v : Word) : (s.withA v).r3 = s.r3 := rfl
@[simp] theorem State.withA_cap (v : Word) : (s.withA v).cap = s.cap := rfl
@[simp] theorem State.withA_off (v : Word) : (s.withA v).off = s.off := rfl
@[simp] theorem State.withA_buf (v : Word) : (s.withA v).buf = s.buf := rfl
@[simp] theorem State.withA_queue (v : Word) : (s.withA v).queue = s.queue := rfl
@[simp] theorem State.withA_reply (v : Word) : (s.withA v).reply = s.reply := rfl
@[simp] theorem State.withA_byteAt (v : Word) (o : Nat) : (s.withA v).byteAt o = s.byteAt o := rfl
@[simp] theorem State.withA_remainingBytes (v : Word) : (s.withA v).remainingBytes = s.remainingBytes := rfl
@[simp] theorem State.withA_checkCapacity (v : Word) (n : Nat) : (s.withA v).checkCapacity n = s.checkCapacity n := rfl

/-! ### State.withB -/

@[simp] theorem State.withB_a (v : Word) : (s.withB v).a = s.a := rfl
@[simp] theorem State.withB_b (v : Word) : (s.withB v).b = v := rfl
@[simp] theorem State.withB_c (v : Word) : (s.withB v).c = s.c := rfl
@[simp] theorem State.withB_cmd (v : Word) : (s.withB v).cmd = s.cmd := rfl
@[simp] theorem State.withB_st (v : Word) : (s.withB v).st = s.st := rfl
@[simp] theorem State.withB_r0 (v : Word) : (s.withB v).r0 = s.r0 := rfl
@[simp] theorem State.withB_r1 (v : Word) : (s.withB v).r1 = s.r1 := rfl
@[simp] theorem State.withB_r2 (v : Word) : (s.withB v).r2 = s.r2 := rfl
@[simp] theorem State.withB_r3 (v : Word) : (s.withB v).r3 = s.r3 := rfl
@[simp] theorem State.withB_cap (v : Word) : (s.withB v).cap = s.cap := rfl
@[simp] theorem State.withB_off (v : Word) : (s.withB v).off = s.off := rfl
@[simp] theorem State.withB_buf (v : Word) : (s.withB v).buf = s.buf := rfl
@[simp] theorem State.withB_queue (v : Word) : (s.withB v).queue = s.queue := rfl
@[simp] theorem State.withB_reply (v : Word) : (s.withB v).reply = s.reply := rfl
@[simp] theorem State.withB_byteAt (v : Word) (o : Nat) : (s.withB v).byteAt o = s.byteAt o := rfl
@[simp] theorem State.withB_remainingBytes (v : Word) : (s.withB v).remainingBytes = s.remainingBytes := rfl
@[simp] theorem State.withB_checkCapacity (v : Word) (n : Nat) : (s.withB v).checkCapacity n = s.checkCapacity n := rfl

/-! ### State.withC -/

@[simp] theorem State.withC_a (v : Word) : (s.withC v).a = s.a := rfl
@[simp] theorem State.withC_b (v : Word) : (s.withC v).b = s.b := rfl
@[simp] theorem State.withC_c (v : Word) : (s.withC v).c = v := rfl
@[simp] theorem State.withC_cmd (v : Word) : (s.withC v).cmd = s.cmd := rfl
@[simp] theorem State.withC_st (v : Word) : (s.withC v).st = s.st := rfl
@[simp] theorem State.withC_r0 (v : Word) : (s.withC v).r0 = s.r0 := rfl
@[simp] theorem State.withC_r1 (v : Word) : (s.withC v).r1 = s.r1 := rfl
@[simp] theorem State.withC_r2 (v : Word) : (s.withC v).r2 = s.r2 := rfl
@[simp] theorem State.withC_r3 (v : Word) : (s.withC v).r3 = s.r3 := rfl
@[simp] theorem State.withC_cap (v : Word) : (s.withC v).cap = s.cap := rfl
@[simp] theorem State.withC_off (v : Word) : (s.withC v).off = s.off := rfl
@[simp] theorem State.withC_buf (v : Word) : (s.withC v).buf = s.buf := rfl
@[simp] theorem State.withC_queue (v : Word) : (s.withC v).queue = s.queue := rfl
@[simp] theorem State.withC_reply (v : Word) : (s.withC v).reply = s.reply := rfl
@[simp] theorem State.withC_byteAt (v : Word) (o : Nat) : (s.withC v).byteAt o = s.byteAt o := rfl
@[simp] theorem State.withC_remainingBytes (v : Word) : (s.withC v).remainingBytes = s.remainingBytes := rfl
@[simp] theorem State.withC_checkCapacity (v : Word) (n : Nat) : (s.withC v).checkCapacity n = s.checkCapacity n := rfl

/-! ### State.withOff -/

@[simp] theorem State.withOff_a (v : Word) : (s.withOff v).a = s.a := rfl
@[simp] theorem State.withOff_b (v : Word) : (s.withOff v).b = s.b := rfl
@[simp] theorem State.withOff_c (v : Word) : (s.withOff v).c = s.c := rfl
@[simp] theorem State.withOff_cmd (v : Word) : (s.withOff v).cmd = s.cmd := rfl
@[simp] theorem State.withOff_st (v : Word) : (s.withOff v).st = s.st := rfl
@[simp] theorem State.withOff_r0 (v : Word) : (s.withOff v).r0 = s.r0 := rfl
@[simp] theorem State.withOff_r1 (v : Word) : (s.withOff v).r1 = s.r1 := rfl
@[simp] theorem State.withOff_r2 (v : Word) : (s.withOff v).r2 = s.r2 := rfl
@[simp] theorem State.withOff_r3 (v : Word) : (s.withOff v).r3 = s.r3 := rfl
@[simp] theorem State.withOff_cap (v : Word) : (s.withOff v).cap = s.cap := rfl
@[simp] theorem State.withOff_off (v : Word) : (s.withOff v).off = v := rfl
@[simp] theorem State.withOff_buf (v : Word) : (s.withOff v).buf = s.buf := rfl
@[simp] theorem State.withOff_queue (v : Word) : (s.withOff v).queue = s.queue := rfl
@[simp] theorem State.withOff_reply (v : Word) : (s.withOff v).reply = s.reply := rfl
@[simp] theorem State.withOff_byteAt (v : Word) (o : Nat) : (s.withOff v).byteAt o = s.byteAt o := rfl

/-! ### State.withByte -/

@[simp] theorem State.withByte_a (o : Nat) (x : Byte) : (s.withByte o x).a = s.a := rfl
@[simp] theorem State.withByte_b (o : Nat) (x : Byte) : (s.withByte o x).b = s.b := rfl
@[simp] theorem State.withByte_c (o : Nat) (x : Byte) : (s.withByte o x).c = s.c := rfl
@[simp] theorem State.withByte_cmd (o : Nat) (x : Byte) : (s.withByte o x).cmd = s.cmd := rfl
@[simp] theorem State.withByte_st (o : Nat) (x : Byte) : (s.withByte o x).st = s.st := rfl
@[simp] theorem State.withByte_r0 (o : Nat) (x : Byte) : (s.withByte o x).r0 = s.r0 := rfl
@[simp] theorem State.withByte_r1 (o : Nat) (x : Byte) : (s.withByte o x).r1 = s.r1 := rfl
@[simp] theorem State.withByte_r2 (o : Nat) (x : Byte) : (s.withByte o x).r2 = s.r2 := rfl
@[simp] theorem State.withByte_r3 (o : Nat) (x : Byte) : (s.withByte o x).r3 = s.r3 := rfl
@[simp] theorem State.withByte_cap (o : Nat) (x : Byte) : (s.withByte o x).cap = s.cap := rfl
@[simp] theorem State.withByte_off (o : Nat) (x : Byte) : (s.withByte o x).off = s.off := rfl
@[simp] theorem State.withByte_buf (o : Nat) (x : Byte) : (s.withByte o x).buf = Memory.insert s.buf o x := rfl
@[simp] theorem State.withByte_queue (o : Nat) (x : Byte) : (s.withByte o x).queue = s.queue := rfl
@[simp] theorem State.withByte_reply (o : Nat) (x : Byte) : (s.withByte o x).reply = s.reply := rfl
@[simp] theorem State.withByte_remainingBytes (o : Nat) (x : Byte) : (s.withByte o x).remainingBytes = s.remainingBytes := rfl
@[simp] theorem State.withByte_checkCapacity (o : Nat) (x : Byte) (n : Nat) : (s.withByte o x).checkCapacity n = s.checkCapacity n := rfl

/-! ### State.withQueue -/

@[simp] theorem State.withQueue_a (q : List HostAction) : (s.withQueue q).a = s.a := rfl
@[simp] theorem State.withQueue_b (q : List HostAction) : (s.withQueue q).b = s.b := rfl
@[simp] theorem State.withQueue_c (q : List HostAction) : (s.withQueue q).c = s.c := rfl
@[simp] theorem State.withQueue_cmd (q : List HostAction) : (s.withQueue q).cmd = s.cmd := rfl
@[simp] theorem State.withQueue_st (q : List HostAction) : (s.withQueue q).st = s.st := rfl
@[simp] theorem State.withQueue_r0 (q : List HostAction) : (s.withQueue q).r0 = s.r0 := rfl
@[simp] theorem State.withQueue_r1 (q : List HostAction) : (s.withQueue q).r1 = s.r1 := rfl
@[simp] theorem State.withQueue_r2 (q : List HostAction) : (s.withQueue q).r2 = s.r2 := rfl
@[simp] theorem State.withQueue_r3 (q : List HostAction) : (s.withQueue q).r3 = s.r3 := rfl
@[simp] theorem State.withQueue_cap (q : List HostAction) : (s.withQueue q).cap = s.cap := rfl
@[simp] theorem State.withQueue_off (q : List HostAction) : (s.withQueue q).off = s.off := rfl
@[simp] theorem State.withQueue_buf (q : List HostAction) : (s.withQueue q).buf = s.buf := rfl
@[simp] theorem State.withQueue_queue (q : List HostAction) : (s.withQueue q).queue = q := rfl
@[simp] theorem State.withQueue_reply (q : List HostAction) : (s.withQueue q).reply = s.reply := rfl
@[simp] theorem State.withQueue_byteAt (q : List HostAction) (o : Nat) : (s.withQueue q).byteAt o = s.byteAt o := rfl
@[simp] theorem State.withQueue_remainingBytes (q : List HostAction) : (s.withQueue q).remainingBytes = s.remainingBytes := rfl
@[simp] theorem State.withQueue_checkCapacity (q : List HostAction) (n : Nat) : (s.withQueue q).checkCapacity n = s.checkCapacity n := rfl

/-! ### State.withReply -/

@[simp] theorem State.withReply_a (r : HostReply) : (s.withReply r).a = s.a := rfl
@[simp] theorem State.withReply_b (r : HostReply) : (s.withReply r).b = s.b := rfl
@[simp] theorem State.withReply_c (r : HostReply) : (s.withReply r).c = s.c := rfl
@[simp] theorem State.withReply_cmd (r : HostReply) : (s.withReply r).cmd = s.cmd := rfl
@[simp] theorem State.withReply_st (r : HostReply) : (s.withReply r).st = s.st := rfl
@[simp] theorem State.withReply_r0 (r : HostReply) : (s.withReply r).r0 = s.r0 := rfl
@[simp] theorem State.withReply_r1 (r : HostReply) : (s.withReply r).r1 = s.r1 := rfl
@[simp] theorem State.withReply_r2 (r : HostReply) : (s.withReply r).r2 = s.r2 := rfl
@[simp] theorem State.withReply_r3 (r : HostReply) : (s.withReply r).r3 = s.r3 := rfl
@[simp] theorem State.withReply_cap (r : HostReply) : (s.withReply r).cap = s.cap := rfl
@[simp] theorem State.withReply_off (r : HostReply) : (s.withReply r).off = s.off := rfl
@[simp] theorem State.withReply_buf (r : HostReply) : (s.withReply r).buf = s.buf := rfl
@[simp] theorem State.withReply_queue (r : HostReply) : (s.withReply r).queue = s.queue := rfl
@[simp] theorem State.withReply_reply (r : HostReply) : (s.withReply r).reply = r := rfl
@[simp] theorem State.withReply_byteAt (r : HostReply) (o : Nat) : (s.withReply r).byteAt o = s.byteAt o := rfl
@[simp] theorem State.withReply_remainingBytes (r : HostReply) : (s.withReply r).remainingBytes = s.remainingBytes := rfl
@[simp] theorem State.withReply_checkCapacity (r : HostReply) (n : Nat) : (s.withReply r).checkCapacity n = s.checkCapacity n := rfl

/-! ### successCommit -/

@[simp] theorem successCommit_a (g : Staged) : (successCommit g s).a = s.a := rfl
@[simp] theorem successCommit_b (g : Staged) : (successCommit g s).b = s.b := rfl
@[simp] theorem successCommit_c (g : Staged) : (successCommit g s).c = s.c := rfl
@[simp] theorem successCommit_cmd (g : Staged) : (successCommit g s).cmd = s.cmd := rfl
@[simp] theorem successCommit_st (g : Staged) : (successCommit g s).st = packStatus 0 g.nb := rfl
@[simp] theorem successCommit_r0 (g : Staged) : (successCommit g s).r0 = g.r0 := rfl
@[simp] theorem successCommit_r1 (g : Staged) : (successCommit g s).r1 = g.r1 := rfl
@[simp] theorem successCommit_r2 (g : Staged) : (successCommit g s).r2 = g.r2 := rfl
@[simp] theorem successCommit_r3 (g : Staged) : (successCommit g s).r3 = g.r3 := rfl
@[simp] theorem successCommit_cap (g : Staged) : (successCommit g s).cap = s.cap := rfl
@[simp] theorem successCommit_off (g : Staged) : (successCommit g s).off = s.off + BitVec.ofNat 64 g.advance := rfl
@[simp] theorem successCommit_buf (g : Staged) : (successCommit g s).buf = Memory.writeFrom s.buf s.off.toNat g.bytes := rfl
@[simp] theorem successCommit_queue (g : Staged) : (successCommit g s).queue = s.queue := rfl
@[simp] theorem successCommit_reply (g : Staged) : (successCommit g s).reply = s.reply := rfl

/-! ### errorCommit -/

@[simp] theorem errorCommit_a (e : ErrorKind) : (errorCommit e s).a = s.a := rfl
@[simp] theorem errorCommit_b (e : ErrorKind) : (errorCommit e s).b = s.b := rfl
@[simp] theorem errorCommit_c (e : ErrorKind) : (errorCommit e s).c = s.c := rfl
@[simp] theorem errorCommit_cmd (e : ErrorKind) : (errorCommit e s).cmd = s.cmd := rfl
@[simp] theorem errorCommit_st (e : ErrorKind) : (errorCommit e s).st = packStatus e.code 0 := rfl
@[simp] theorem errorCommit_r0 (e : ErrorKind) : (errorCommit e s).r0 = 0 := rfl
@[simp] theorem errorCommit_r1 (e : ErrorKind) : (errorCommit e s).r1 = 0 := rfl
@[simp] theorem errorCommit_r2 (e : ErrorKind) : (errorCommit e s).r2 = 0 := rfl
@[simp] theorem errorCommit_r3 (e : ErrorKind) : (errorCommit e s).r3 = 0 := rfl
@[simp] theorem errorCommit_cap (e : ErrorKind) : (errorCommit e s).cap = s.cap := rfl
@[simp] theorem errorCommit_off (e : ErrorKind) : (errorCommit e s).off = s.off := rfl
@[simp] theorem errorCommit_buf (e : ErrorKind) : (errorCommit e s).buf = s.buf := rfl
@[simp] theorem errorCommit_queue (e : ErrorKind) : (errorCommit e s).queue = s.queue := rfl
@[simp] theorem errorCommit_reply (e : ErrorKind) : (errorCommit e s).reply = s.reply := rfl
@[simp] theorem errorCommit_byteAt (e : ErrorKind) (o : Nat) : (errorCommit e s).byteAt o = s.byteAt o := rfl
@[simp] theorem errorCommit_remainingBytes (e : ErrorKind) : (errorCommit e s).remainingBytes = s.remainingBytes := rfl
@[simp] theorem errorCommit_checkCapacity (e : ErrorKind) (n : Nat) : (errorCommit e s).checkCapacity n = s.checkCapacity n := rfl

/-! ### vnbReset -/

@[simp] theorem vnbReset_a : (vnbReset s).a = 0 := rfl
@[simp] theorem vnbReset_b : (vnbReset s).b = 0 := rfl
@[simp] theorem vnbReset_c : (vnbReset s).c = 0 := rfl
@[simp] theorem vnbReset_cmd : (vnbReset s).cmd = 0 := rfl
@[simp] theorem vnbReset_st : (vnbReset s).st = 0 := rfl
@[simp] theorem vnbReset_r0 : (vnbReset s).r0 = 0 := rfl
@[simp] theorem vnbReset_r1 : (vnbReset s).r1 = 0 := rfl
@[simp] theorem vnbReset_r2 : (vnbReset s).r2 = 0 := rfl
@[simp] theorem vnbReset_r3 : (vnbReset s).r3 = 0 := rfl
@[simp] theorem vnbReset_cap : (vnbReset s).cap = s.cap := rfl
@[simp] theorem vnbReset_off : (vnbReset s).off = 0 := rfl
@[simp] theorem vnbReset_buf : (vnbReset s).buf = s.buf := rfl
@[simp] theorem vnbReset_queue : (vnbReset s).queue = s.queue := rfl
@[simp] theorem vnbReset_reply : (vnbReset s).reply = s.reply := rfl
@[simp] theorem vnbReset_byteAt (o : Nat) : (vnbReset s).byteAt o = s.byteAt o := rfl

/-! ### State.reset -/

@[simp] theorem State.reset_a : State.reset.a = 0 := rfl
@[simp] theorem State.reset_b : State.reset.b = 0 := rfl
@[simp] theorem State.reset_c : State.reset.c = 0 := rfl
@[simp] theorem State.reset_cmd : State.reset.cmd = 0 := rfl
@[simp] theorem State.reset_st : State.reset.st = 0 := rfl
@[simp] theorem State.reset_r0 : State.reset.r0 = 0 := rfl
@[simp] theorem State.reset_r1 : State.reset.r1 = 0 := rfl
@[simp] theorem State.reset_r2 : State.reset.r2 = 0 := rfl
@[simp] theorem State.reset_r3 : State.reset.r3 = 0 := rfl
@[simp] theorem State.reset_cap : State.reset.cap = Config.cap := rfl
@[simp] theorem State.reset_off : State.reset.off = 0 := rfl
@[simp] theorem State.reset_buf : State.reset.buf = [] := rfl
@[simp] theorem State.reset_queue : State.reset.queue = [] := rfl
@[simp] theorem State.reset_reply : State.reset.reply = HostReply.none := rfl

end Sys2Proof.Machine
end

