-- ==== Sys2Proof/Laws/Bits.lean ====
section
/-!
SUPPORT. What the bit primitives, length functions and byte extractions compute, as facts about natural numbers
(00_scope.md R5, 41_minwidth.md R120, R121, 42_leb128.md R161).
-/

namespace Sys2Proof.Machine

/-! ### Leading zeros and bit length -/

theorem clzBelow_le (v : Word) (k : Nat) : clzBelow v k ≤ k := by
  induction k with
  | zero => simp [clzBelow]
  | succ k ih => simp only [clzBelow]; split <;> omega

/-- At least j leading zero bits below k means that the top j of them are zero. -/
theorem le_clzBelow_iff (v : Word) (k j : Nat) (h : j ≤ k) :
    j ≤ clzBelow v k ↔ ∀ i, k - j ≤ i → i < k → v.getLsbD i = false := by
  induction k generalizing j with
  | zero => obtain rfl : j = 0 := by omega
            simp [clzBelow]
  | succ k ih =>
    cases j with
    | zero => simp only [Nat.zero_le, true_iff]; intro i h1 h2; omega
    | succ j =>
      simp only [clzBelow]
      by_cases hb : v.getLsbD k = true
      · simp only [hb, if_true]
        constructor
        · intro h0; omega
        · intro h0; have := h0 k (by omega) (by omega); simp [hb] at this
      · simp only [Bool.not_eq_true] at hb
        have hih := ih j (by omega)
        simp only [hb]
        constructor
        · intro h0 i h1 h2
          have h0' : j ≤ clzBelow v k := by simp at h0; omega
          by_cases hik : i = k
          · subst hik; exact hb
          · exact hih.1 h0' i (by omega) (by omega)
        · intro h0
          have : j ≤ clzBelow v k := hih.2 fun i h1 h2 => h0 i (by omega) (by omega)
          simp; omega

/-- The value is below 2^k exactly when its bits from k up are zero. -/
theorem toNat_lt_two_pow_iff (v : Word) (k : Nat) :
    v.toNat < 2 ^ k ↔ ∀ i, k ≤ i → i < 64 → v.getLsbD i = false := by
  constructor
  · intro h i h1 _
    rw [← BitVec.testBit_toNat]
    exact Nat.testBit_lt_two_pow (Nat.lt_of_lt_of_le h (Nat.pow_le_pow_right (by omega) h1))
  · intro h
    apply Nat.lt_pow_two_of_testBit
    intro i hi
    rw [BitVec.testBit_toNat]
    by_cases h64 : i < 64
    · exact h i hi h64
    · exact BitVec.getLsbD_of_ge v i (by omega)

/-- `bitlen(v) <= k` exactly when v < 2^k (00_scope.md R5). -/
theorem bitlen_le_iff (v : Word) (k : Nat) : bitlen v ≤ k ↔ v.toNat < 2 ^ k := by
  by_cases hk : k ≤ 64
  · rw [toNat_lt_two_pow_iff]
    have h1 := le_clzBelow_iff v 64 (64 - k) (by omega)
    have h2 := clzBelow_le v 64
    rw [show 64 - (64 - k) = k by omega] at h1
    rw [← h1]
    unfold bitlen clz64
    omega
  · have h1 : bitlen v ≤ k := by unfold bitlen; omega
    have h2 : v.toNat < 2 ^ k := Nat.lt_of_lt_of_le v.isLt (Nat.pow_le_pow_right (by omega) (by omega))
    exact iff_of_true h1 h2

/-- Only 0 has bit length 0. -/
theorem bitlen_pos (v : Word) (h : v ≠ 0) : 0 < bitlen v := by
  have hv : ¬ v.toNat < 2 ^ 0 := by
    intro hlt
    exact h (BitVec.eq_of_toNat_eq (by simpa using hlt))
  have := (not_congr (bitlen_le_iff v 0)).2 hv
  omega

theorem ceilDiv_le_iff (a d n : Nat) (hd : 0 < d) : ceilDiv a d ≤ n ↔ a ≤ d * n := by
  unfold ceilDiv
  rw [Nat.div_le_iff_le_mul hd]
  have : n * d = d * n := Nat.mul_comm n d
  omega

/-! ### Length functions -/

/-- `minimal_len` is the smallest byte count into which the value fits (41_minwidth.md R120). -/
theorem minimalLen_isMinimalUnsigned (v : Word) : IsMinimalUnsigned v.toNat (minimalLen v) := by
  have hle : ∀ n, 1 ≤ n → (minimalLen v ≤ n ↔ v.toNat < 2 ^ (8 * n)) := by
    intro n hn
    unfold minimalLen
    split
    · next h => subst h; simp [hn]
    · rw [ceilDiv_le_iff _ _ _ (by omega), bitlen_le_iff]
  have hpos : 1 ≤ minimalLen v := by
    unfold minimalLen
    split
    · omega
    · next h =>
      have := bitlen_pos v h
      have h0 := not_congr (ceilDiv_le_iff (bitlen v) 8 0 (by omega))
      omega
  refine ⟨hpos, (hle 8 (by omega)).2 v.isLt, (hle _ hpos).1 (le_refl _), fun m h2 h1 => ?_⟩
  have := (not_congr (hle m h1)).1 (by omega)
  omega

/-- The value whose bit length `minimal_len_signed` measures, as a condition on the signed number (R121). -/
theorem toInt_range_iff (v : Word) (n : Nat) :
    (-(2 ^ (8 * n - 1) : Int) ≤ v.toInt ∧ v.toInt < 2 ^ (8 * n - 1)) ↔
      (if v.toInt < 0 then ~~~v else v).toNat < 2 ^ (8 * n - 1) := by
  have hcast : ((2 ^ (8 * n - 1) : Nat) : Int) = (2 : Int) ^ (8 * n - 1) := by push_cast; rfl
  rw [← hcast]
  have hpos : 0 < 2 ^ (8 * n - 1) := Nat.two_pow_pos _
  have hv := v.isLt
  generalize 2 ^ (8 * n - 1) = p at *
  by_cases hneg : v.toInt < 0
  · simp only [hneg, if_true, BitVec.toNat_not]
    rw [BitVec.toInt_eq_toNat_cond] at *
    split at hneg <;> split <;> omega
  · simp only [hneg, if_false]
    rw [BitVec.toInt_eq_toNat_cond] at *
    split at hneg <;> split <;> omega

/-- `minimal_len_signed` is the smallest byte count whose two's-complement range holds the value
(41_minwidth.md R121). -/
theorem minimalLenSigned_isMinimalSigned (v : Word) : IsMinimalSigned v.toInt (minimalLenSigned v) := by
  have hle : ∀ n, 1 ≤ n →
      (minimalLenSigned v ≤ n ↔ (-(2 ^ (8 * n - 1) : Int) ≤ v.toInt ∧ v.toInt < 2 ^ (8 * n - 1))) := by
    intro n hn
    rw [toInt_range_iff v n, ← bitlen_le_iff]
    simp only [minimalLenSigned]
    rw [ceilDiv_le_iff _ _ _ (by omega)]
    omega
  have hpos : 1 ≤ minimalLenSigned v := by
    simp only [minimalLenSigned]
    generalize bitlen _ = k
    have h0 := not_congr (ceilDiv_le_iff (k + 1) 8 0 (by omega))
    omega
  refine ⟨hpos, (hle 8 (by omega)).2 ?_, (hle _ hpos).1 (le_refl _), fun m h2 h1 => ?_⟩
  · have h2 := BitVec.toInt_lt (x := v); have h3 := BitVec.le_toInt (x := v); norm_num at *; omega
  · exact (not_congr (hle m h1)).1 (by omega)

/-- `leb_len` of a value below 2^56 is its varint length (42_leb128.md R161). -/
theorem lebLen_of_lt (x : Word) (h : x.toNat < 2 ^ 56) : ∃ n, lebLen x = .ok n ∧ IsVarintLength x.toNat n := by
  refine ⟨if x = 0 then 1 else ceilDiv (bitlen x) 7, by simp only [lebLen]; rw [if_neg (by omega)], ?_⟩
  by_cases hx : x = 0
  · subst hx; simp [IsVarintLength]
  · rw [if_neg hx]
    have hle : ∀ n, (ceilDiv (bitlen x) 7 ≤ n ↔ x.toNat < 2 ^ (7 * n)) := fun n => by
      rw [ceilDiv_le_iff _ _ _ (by omega), bitlen_le_iff]
    have hpos : 1 ≤ ceilDiv (bitlen x) 7 := by
      have := bitlen_pos x hx
      have h0 := not_congr (ceilDiv_le_iff (bitlen x) 7 0 (by omega))
      omega
    refine ⟨hpos, (hle 8).2 h, (hle _).1 (le_refl _), fun m h2 _ => ?_⟩
    have := (not_congr (hle m)).1 (by omega)
    omega

/-- `leb_len` of a value of 2^56 or more raises InvalidLength (42_leb128.md R161). -/
theorem lebLen_of_ge (x : Word) (h : 2 ^ 56 ≤ x.toNat) : lebLen x = .error .invalidLength := by
  simp only [lebLen]; rw [if_pos (by omega)]

/-- A minimal unsigned length is unique. -/
theorem IsMinimalUnsigned.unique {v n m : Nat} (hn : IsMinimalUnsigned v n) (hm : IsMinimalUnsigned v m) : n = m := by
  obtain ⟨h1, -, h2, h3⟩ := hn
  obtain ⟨k1, -, k2, k3⟩ := hm
  rcases Nat.lt_trichotomy n m with h | h | h
  · have := k3 n h h1; omega
  · exact h
  · have := h3 m h k1; omega

/-- A minimal signed length is unique. -/
theorem IsMinimalSigned.unique {v : Int} {n m : Nat} (hn : IsMinimalSigned v n) (hm : IsMinimalSigned v m) : n = m := by
  obtain ⟨h1, -, h2, h3⟩ := hn
  obtain ⟨k1, -, k2, k3⟩ := hm
  rcases Nat.lt_trichotomy n m with h | h | h
  · exact absurd h2 (k3 n h h1)
  · exact h
  · exact absurd k2 (h3 m h k1)

/-- A varint length is unique. -/
theorem IsVarintLength.unique {v n m : Nat} (hn : IsVarintLength v n) (hm : IsVarintLength v m) : n = m := by
  obtain ⟨h1, -, h2, h3⟩ := hn
  obtain ⟨k1, -, k2, k3⟩ := hm
  rcases Nat.lt_trichotomy n m with h | h | h
  · have := k3 n h h1; omega
  · exact h
  · have := h3 m h k1; omega

/-! ### Trailing ones -/

/-- The run of trailing ones of a byte ends in a zero bit, or is the whole byte 0xFF (00_scope.md R5). -/
theorem cto8_spec : ∀ b : Byte,
    cto8 b ≤ 8 ∧ (cto8 b = 8 ↔ b = 0xFF) ∧ (cto8 b < 8 → b.toNat % 2 ^ (cto8 b + 1) = 2 ^ cto8 b - 1) := by
  decide

/-- The number of trailing ones is k, below 8, exactly when the low k + 1 bits are k ones under a zero
(43_vlu.md R182). -/
theorem cto8_eq_iff (b : Byte) (k : Nat) (hk : k < 8) : cto8 b = k ↔ b.toNat % 2 ^ (k + 1) = 2 ^ k - 1 := by
  have h : ∀ (k : Fin 8) (b : Byte), cto8 b = k.val ↔ b.toNat % 2 ^ (k.val + 1) = 2 ^ k.val - 1 := by decide
  exact h ⟨k, hk⟩ b

/-- The equality 00_scope.md R5 gives for `cto8`, where the complemented byte is not 0 (log 10). -/
theorem cto8_eq_ctz64 : ∀ b : Byte, b ≠ 0xFF → cto8 b = ctz64 ((~~~b).setWidth 64) := by
  decide

/-! ### Bytes and status -/

/-- Byte k of a value, as a number (00_scope.md R2). -/
theorem byteOf_toNat (v : Word) (k : Nat) : (byteOf v k).toNat = v.toNat / 2 ^ (8 * k) % 256 := by
  simp [byteOf, BitVec.extractLsb'_toNat, Nat.shiftRight_eq_div_pow]

@[simp] theorem fieldBytes_length (order : ByteOrder) (n : Nat) (v : Word) : (fieldBytes order n v).length = n := by
  simp [fieldBytes]

@[simp] theorem fieldBytes_getElem (order : ByteOrder) (n : Nat) (v : Word) (i : Nat)
    (h : i < (fieldBytes order n v).length) : (fieldBytes order n v)[i] = byteOf v (byteIndex order n i) := by
  simp [fieldBytes]

@[simp] theorem lebBytes_length (x : Word) (len : Nat) : (lebBytes x len).length = len := by
  simp [lebBytes]

@[simp] theorem lebBytes_getElem (x : Word) (len i : Nat) (h : i < (lebBytes x len).length) :
    (lebBytes x len)[i] = lebByte x len i := by
  simp [lebBytes]

/-- A LEB128 byte is its group, plus 128 in every byte but the last (42_leb128.md R160). -/
theorem lebByte_toNat (x : Word) (len i : Nat) :
    (lebByte x len i).toNat = x.toNat / 2 ^ (7 * i) % 128 + (if i < len - 1 then 128 else 0) := by
  have hg : x.toNat / 2 ^ (7 * i) % 2 ^ 7 < 2 ^ 7 := Nat.mod_lt _ (by norm_num)
  simp only [lebByte, BitVec.toNat_append, BitVec.extractLsb'_toNat, Nat.shiftRight_eq_div_pow, Nat.shiftLeft_eq]
  rw [Nat.mul_comm, ← Nat.two_pow_add_eq_or_of_lt hg]
  split <;> simp [Nat.add_comm]

/-- The status word as a number (10_state.md R25 to R27). -/
theorem packStatus_toNat (err nb : BitVec 4) : (packStatus err nb).toNat = err.toNat + 16 * nb.toNat := by
  revert err nb; decide

end Sys2Proof.Machine
end

