-- ==== Sys2Proof/Laws/Memory.lean ====
section
/-!
SUPPORT. The laws of the cursor's bytes: read after write, the canonical form and the bound CAP are kept.
-/

namespace Sys2Proof.Machine

/-! ### Reading after writing -/

/-- A read after a write gives the byte written at that offset and the old byte everywhere else. -/
@[simp] theorem Memory.lookup_insert (m : Memory) (o : Nat) (b : Byte) (o' : Nat) :
    Memory.lookup (Memory.insert m o b) o' = if o = o' then some b else Memory.lookup m o' := by
  induction m with
  | nil => simp [Memory.insert, Memory.lookup]
  | cons cell rest ih =>
    obtain ⟨k, v⟩ := cell
    simp only [Memory.insert]
    split
    · simp [Memory.lookup]
    · split
      · next _ h => subst h; simp only [Memory.lookup]; split <;> rfl
      · next _ h =>
        simp only [Memory.lookup, ih]
        by_cases hk : k = o'
        · subst hk; simp [h]
        · simp [hk]

/-- A read after writing bytes from o upward gives the byte written there, or the old byte outside them. -/
theorem Memory.lookup_writeFrom (m : Memory) (o : Nat) (bs : List Byte) (o' : Nat) :
    Memory.lookup (Memory.writeFrom m o bs) o' =
      if h : o ≤ o' ∧ o' - o < bs.length then some (bs[o' - o]'h.2) else Memory.lookup m o' := by
  induction bs generalizing m o with
  | nil => simp [Memory.writeFrom]
  | cons b bs ih =>
    rw [Memory.writeFrom, ih, Memory.lookup_insert]
    by_cases h1 : o = o'
    · subst h1
      have hn : ¬ (o + 1 ≤ o) := by omega
      simp [hn]
    · by_cases h2 : o + 1 ≤ o' ∧ o' - (o + 1) < bs.length
      · have h3 : o ≤ o' ∧ o' - o < (b :: bs).length := by simp only [List.length_cons]; omega
        have h4 : o' - o = (o' - (o + 1)) + 1 := by omega
        rw [dif_pos h2, dif_pos h3]
        simp [h4]
      · have h3 : ¬ (o ≤ o' ∧ o' - o < (b :: bs).length) := by simp only [List.length_cons]; omega
        rw [dif_neg h2, dif_neg h3, if_neg h1]

/-! ### The canonical form -/

/-- A list with a smaller offset in front is in canonical form exactly when the rest is and starts above it. -/
theorem Memory.wf_cons (k : Nat) (v : Byte) (m : Memory) :
    Memory.wf ((k, v) :: m) = true ↔ (∀ p ∈ m.head?, k < p.1) ∧ Memory.wf m = true := by
  cases m with
  | nil => simp [Memory.wf]
  | cons p rest => obtain ⟨k', v'⟩ := p; simp [Memory.wf]

/-- Writing a byte puts either the old first offset or the new one in front. -/
theorem Memory.head_insert (m : Memory) (o : Nat) (b : Byte) :
    ∀ p ∈ (Memory.insert m o b).head?, p.1 = o ∨ ∃ q ∈ m.head?, p.1 = q.1 := by
  cases m with
  | nil => simp [Memory.insert]
  | cons q rest =>
    obtain ⟨k, v⟩ := q
    simp only [Memory.insert]
    split
    · simp
    · split
      · simp
      · simp

/-- Writing a byte keeps the canonical form. -/
theorem Memory.wf_insert (m : Memory) (o : Nat) (b : Byte) (h : Memory.wf m = true) :
    Memory.wf (Memory.insert m o b) = true := by
  induction m with
  | nil => rfl
  | cons cell rest ih =>
    obtain ⟨k, v⟩ := cell
    rw [Memory.wf_cons] at h
    simp only [Memory.insert]
    split
    · next hlt =>
      rw [Memory.wf_cons]
      exact ⟨by simpa using hlt, (Memory.wf_cons k v rest).2 h⟩
    · split
      · next heq => subst heq; exact (Memory.wf_cons o b rest).2 h
      · next hlt hne =>
        rw [Memory.wf_cons]
        refine ⟨fun p hp => ?_, ih h.2⟩
        rcases Memory.head_insert rest o b p hp with hpo | ⟨q, hq, hpq⟩
        · omega
        · have := h.1 q hq; omega

/-- Writing bytes keeps the canonical form. -/
theorem Memory.wf_writeFrom (m : Memory) (o : Nat) (bs : List Byte) (h : Memory.wf m = true) :
    Memory.wf (Memory.writeFrom m o bs) = true := by
  induction bs generalizing m o with
  | nil => exact h
  | cons b bs ih => exact ih _ _ (Memory.wf_insert m o b h)

/-- Writing a byte below the capacity lists no offset at or above it. -/
theorem Memory.within_insert (m : Memory) (o : Nat) (b : Byte) (cap : Nat)
    (h : Memory.within m cap = true) (ho : o < cap) : Memory.within (Memory.insert m o b) cap = true := by
  induction m with
  | nil => simp [Memory.insert, Memory.within, ho]
  | cons cell rest ih =>
    obtain ⟨k, v⟩ := cell
    simp only [Memory.within, List.all_cons, Bool.and_eq_true, decide_eq_true_eq] at h ih
    simp only [Memory.insert]
    split
    · simp [Memory.within, ho, h.1]; simpa using h.2
    · split
      · simp [Memory.within, ho]; simpa using h.2
      · simp only [Memory.within, List.all_cons, Bool.and_eq_true, decide_eq_true_eq]
        exact ⟨h.1, ih h.2⟩

/-- Writing bytes below the capacity lists no offset at or above it. -/
theorem Memory.within_writeFrom (m : Memory) (o : Nat) (bs : List Byte) (cap : Nat)
    (h : Memory.within m cap = true) (ho : bs = [] ∨ o + bs.length ≤ cap) :
    Memory.within (Memory.writeFrom m o bs) cap = true := by
  induction bs generalizing m o with
  | nil => exact h
  | cons b bs ih =>
    have hlen : o + (bs.length + 1) ≤ cap := by simpa using ho
    exact ih _ _ (Memory.within_insert m o b cap h (by omega)) (Or.inr (by omega))

/-! ### The bytes of the machine -/

/-- The host's direct write changes one byte. -/
@[simp] theorem State.withByte_byteAt (s : State) (o : Nat) (b : Byte) (o' : Nat) :
    (s.withByte o b).byteAt o' = if o = o' then b else s.byteAt o' := by
  simp only [State.byteAt, State.withByte_buf, Memory.lookup_insert]
  split <;> rfl

/-- A success commit changes the staged bytes, from OFF upward, and no other. -/
theorem successCommit_byteAt (g : Staged) (s : State) (o : Nat) :
    (successCommit g s).byteAt o =
      if h : s.off.toNat ≤ o ∧ o - s.off.toNat < g.bytes.length then g.bytes[o - s.off.toNat]'h.2 else s.byteAt o := by
  simp only [State.byteAt, successCommit_buf, Memory.lookup_writeFrom]
  split <;> rfl

/-- A success commit that stages no bytes changes none. -/
theorem successCommit_byteAt_of_no_bytes (g : Staged) (s : State) (o : Nat) (h : g.bytes = []) :
    (successCommit g s).byteAt o = s.byteAt o := by
  rw [successCommit_byteAt]
  simp [h]

end Sys2Proof.Machine
end

