-- ==== Sys2Proof/Laws/Values.lean ====
section
/-!
SUPPORT. What the shared procedures compute, as facts about natural numbers: the value a read gathers, sign extension,
the LEB128 and VLU values, the fields of a floating-point pattern.
-/

namespace Sys2Proof.Machine

/-! ### Joining disjoint bit ranges -/

/-- Joining a word below 2^k with a piece shifted up by k adds them, when both fit 64 bits. -/
theorem or_shiftLeft_toNat (u x : Word) (k : Nat) (hu : u.toNat < 2 ^ k) (hx : x.toNat * 2 ^ k < 2 ^ 64) :
    (u ||| (x <<< k)).toNat = u.toNat + x.toNat * 2 ^ k := by
  rw [BitVec.toNat_or, BitVec.toNat_shiftLeft, Nat.shiftLeft_eq, Nat.mod_eq_of_lt hx, Nat.or_comm,
    Nat.mul_comm, ← Nat.two_pow_add_eq_or_of_lt hu, Nat.add_comm]

/-- Joining a word that is a multiple of 2^(k+w) with a w-bit piece shifted up by k adds them. -/
theorem or_shiftLeft_below_toNat (u x : Word) (k w a : Nat) (hu : u.toNat = a * 2 ^ (k + w)) (hw : x.toNat < 2 ^ w)
    (hx : x.toNat * 2 ^ k < 2 ^ 64) : (u ||| (x <<< k)).toNat = u.toNat + x.toNat * 2 ^ k := by
  have hlt : x.toNat * 2 ^ k < 2 ^ (k + w) := by
    rw [Nat.pow_add, Nat.mul_comm]
    exact Nat.mul_lt_mul_of_pos_left hw (Nat.two_pow_pos k)
  rw [BitVec.toNat_or, BitVec.toNat_shiftLeft, Nat.shiftLeft_eq, Nat.mod_eq_of_lt hx, hu, Nat.mul_comm a,
    ← Nat.two_pow_add_eq_or_of_lt hlt]

/-- A byte shifted into place stays below the next byte's place. -/
theorem byte_mul_lt (b : Byte) (k : Nat) : b.toNat * 2 ^ (8 * k) < 2 ^ (8 * (k + 1)) := by
  have hb := b.isLt
  rw [Nat.mul_add, Nat.pow_add, Nat.mul_comm]
  exact Nat.mul_lt_mul_of_pos_left hb (Nat.two_pow_pos _)

theorem zext_byte_toNat (b : Byte) : (b.setWidth 64).toNat = b.toNat := by
  rw [BitVec.toNat_setWidth, Nat.mod_eq_of_lt]
  have := b.isLt
  omega

/-! ### Values in the buffer -/

theorem State.beValue_lt (s : State) (o n : Nat) : s.beValue o n < 2 ^ (8 * n) := by
  induction n with
  | zero => simp [State.beValue]
  | succ n ih =>
    have hb := (s.byteAt (o + n)).isLt
    rw [State.beValue, Nat.mul_add, Nat.pow_add]
    omega

theorem State.leValue_lt (s : State) (o n : Nat) : s.leValue o n < 2 ^ (8 * n) := by
  induction n generalizing o with
  | zero => simp [State.leValue]
  | succ n ih =>
    have hb := (s.byteAt o).isLt
    have := ih (o + 1)
    rw [State.leValue, Nat.mul_add, Nat.pow_add]
    omega

/-- The little-endian value with its last byte taken off. -/
theorem State.leValue_succ (s : State) (o n : Nat) :
    s.leValue o (n + 1) = s.leValue o n + (s.byteAt (o + n)).toNat * 2 ^ (8 * n) := by
  induction n generalizing o with
  | zero => simp [State.leValue]
  | succ n ih =>
    have h1 : s.leValue o (n + 1 + 1) = (s.byteAt o).toNat + 256 * s.leValue (o + 1) (n + 1) := rfl
    have h2 : s.leValue o (n + 1) = (s.byteAt o).toNat + 256 * s.leValue (o + 1) n := rfl
    rw [h1, ih, h2, show o + 1 + n = o + (n + 1) by omega, Nat.mul_add 8 n 1, Nat.pow_add]
    ring

/-- The low bytes of a little-endian gathering, `fs` giving the offset of byte i. -/
theorem gatherLE_toNat (f : Nat → Byte) (n : Nat) (h : n ≤ 8) :
    ((List.range n).foldl (fun u i => u ||| ((f i).setWidth 64 <<< (8 * i))) (0 : Word)).toNat =
      ((List.range n).map fun i => (f i).toNat * 2 ^ (8 * i)).sum ∧
    ((List.range n).map fun i => (f i).toNat * 2 ^ (8 * i)).sum < 2 ^ (8 * n) := by
  induction n with
  | zero => simp
  | succ n ih =>
    obtain ⟨ih1, ih2⟩ := ih (by omega)
    have hb := byte_mul_lt (f n) n
    have hb64 : (f n).toNat * 2 ^ (8 * n) < 2 ^ 64 :=
      Nat.lt_of_lt_of_le hb (Nat.pow_le_pow_right (by omega) (by omega))
    rw [List.range_succ, List.foldl_append, List.map_append, List.sum_append]
    simp only [List.foldl_cons, List.foldl_nil, List.map_cons, List.map_nil, List.sum_cons, List.sum_nil, Nat.add_zero]
    rw [or_shiftLeft_toNat _ _ _ (by rw [ih1]; exact ih2) (by rw [zext_byte_toNat]; exact hb64), ih1, zext_byte_toNat]
    refine ⟨rfl, ?_⟩
    have hlt : (f n).toNat < 256 := (f n).isLt
    rw [Nat.mul_add 8 n 1, Nat.pow_add]
    have h3 : ((f n).toNat + 1) * 2 ^ (8 * n) ≤ 256 * 2 ^ (8 * n) := Nat.mul_le_mul_right _ hlt
    rw [Nat.add_mul] at h3
    omega

/-- The little-endian value as the sum of its bytes in place. -/
theorem State.leValue_eq_sum (s : State) (o n : Nat) :
    s.leValue o n = ((List.range n).map fun i => (s.byteAt (o + i)).toNat * 2 ^ (8 * i)).sum := by
  induction n with
  | zero => rfl
  | succ n ih =>
    rw [State.leValue_succ, List.range_succ, List.map_append, List.sum_append, ih]
    simp

/-- A little-endian gathering is the little-endian value (41_minwidth.md R123). -/
theorem gather_le_toNat (s : State) (n : Nat) (h : n ≤ 8) : (s.gather .le n).toNat = s.leValue s.off.toNat n := by
  rw [State.leValue_eq_sum]
  exact (gatherLE_toNat (fun i => s.byteAt (s.off.toNat + i)) n h).1

/-- A big-endian gathering is the big-endian value (41_minwidth.md R123). -/
theorem gather_be_toNat (s : State) (n : Nat) (h : n ≤ 8) : (s.gather .be n).toNat = s.beValue s.off.toNat n := by
  have key : ∀ i, i ≤ n →
      ((List.range i).foldl (fun u j => u ||| ((s.byteAt (s.off.toNat + j)).setWidth 64 <<< (8 * byteIndex .be n j)))
        (0 : Word)).toNat = s.beValue s.off.toNat i * 2 ^ (8 * (n - i)) := by
    intro i
    induction i with
    | zero => simp [State.beValue]
    | succ i ih =>
      intro hi
      have ihi := ih (by omega)
      have hb := byte_mul_lt (s.byteAt (s.off.toNat + i)) (n - 1 - i)
      have hb64 : (s.byteAt (s.off.toNat + i)).toNat * 2 ^ (8 * (n - 1 - i)) < 2 ^ 64 :=
        Nat.lt_of_lt_of_le hb (Nat.pow_le_pow_right (by omega) (by omega))
      rw [List.range_succ, List.foldl_append]
      simp only [List.foldl_cons, List.foldl_nil, byteIndex] at ihi ⊢
      have he : 8 * (n - i) = 8 * (n - 1 - i) + 8 := by omega
      rw [or_shiftLeft_below_toNat _ _ _ 8 (s.beValue s.off.toNat i) (by rw [ihi, he])
        (by rw [zext_byte_toNat]; exact (s.byteAt _).isLt) (by rw [zext_byte_toNat]; exact hb64), ihi, zext_byte_toNat,
        State.beValue, he, Nat.pow_add, show n - (i + 1) = n - 1 - i by omega]
      ring
  have := key n (le_refl n)
  simpa [State.gather] using this

/-- Sign extension of an n-byte value, as a number (41_minwidth.md R123). -/
theorem signExtendBytes_toNat (u : Word) (n : Nat) (h1 : 1 ≤ n) (h8 : n ≤ 8) (hu : u.toNat < 2 ^ (8 * n)) :
    (signExtendBytes u n).toNat = signExtendedValue n u.toNat := by
  have hw : (u.setWidth (8 * n)).toNat = u.toNat := by rw [BitVec.toNat_setWidth, Nat.mod_eq_of_lt hu]
  have hmsb : (u.setWidth (8 * n)).msb = decide (2 ^ (8 * n - 1) ≤ u.toNat) := by
    rw [BitVec.msb_eq_decide, hw]
  have hle : 2 ^ (8 * n) ≤ 2 ^ 64 := Nat.pow_le_pow_right (by omega) (by omega)
  simp only [signExtendBytes, signExtendedValue, BitVec.toNat_signExtend, BitVec.toNat_setWidth, hmsb, h1, true_and,
    Nat.mod_eq_of_lt hu, Nat.mod_eq_of_lt u.isLt]
  by_cases hs : 2 ^ (8 * n - 1) ≤ u.toNat
  · simp [hs]
  · simp [hs]

end Sys2Proof.Machine
end

