-- ==== Sys2Proof/Laws/Procedures.lean ====
section
/-!
SUPPORT. One lemma per way each shared operation can end: the two commits, the minimal-width write and read, the
LEB128 and VLU procedures, the fields of a pattern.
-/

namespace Sys2Proof.Machine

/-! ### The two commits -/

@[simp] theorem finish_ok (g : Staged) (s : State) : finish (.ok g) s = .next (successCommit g s) := rfl

@[simp] theorem finish_error (e : ErrorKind) (s : State) : finish (.error e) s = .next (errorCommit e s) := rfl

/-- A command ends in one of its two commits, always a next state (60_exceptions.md R200). -/
theorem finish_cases (r : Except ErrorKind Staged) (s : State) :
    (∃ g, r = .ok g ∧ finish r s = .next (successCommit g s)) ∨
      ∃ e, r = .error e ∧ finish r s = .next (errorCommit e s) := by
  cases r with
  | ok g => exact .inl ⟨g, rfl, rfl⟩
  | error e => exact .inr ⟨e, rfl, rfl⟩

/-- What the error commit leaves (60_exceptions.md R204). -/
theorem errorCommit_endsInError (e : ErrorKind) (s : State) : EndsInError s (errorCommit e s) e.code.toNat := by
  refine ⟨⟨rfl, rfl, rfl, rfl, rfl, rfl, rfl⟩, ⟨rfl, fun o => rfl⟩, ⟨rfl, rfl, rfl, rfl⟩, ?_⟩
  simp [Status, packStatus_toNat]

/-- The check of the capacity, as numbers (20_memory.md R54). -/
theorem checkCapacity_iff (s : State) (n : Nat) : s.checkCapacity n = true ↔ Fits s n := by
  unfold State.checkCapacity State.remainingBytes
  exact decide_eq_true_iff

theorem checkCapacity_false_iff (s : State) (n : Nat) : s.checkCapacity n = false ↔ ¬ Fits s n := by
  rw [← checkCapacity_iff]; simp

/-- The check depends only on OFF and CAP. -/
theorem checkCapacity_congr {s u : State} (ho : u.off = s.off) (hc : u.cap = s.cap) (n : Nat) :
    u.checkCapacity n = s.checkCapacity n := by
  unfold State.checkCapacity State.remainingBytes
  rw [ho, hc]

/-- The offset after an advance that fits. -/
theorem off_add_toNat (s : State) (n : Nat) (h : Fits s n) :
    (s.off + BitVec.ofNat 64 n).toNat = s.off.toNat + n := by
  have h1 := s.cap.isLt
  have h2 := s.off.isLt
  rw [BitVec.toNat_add, BitVec.toNat_ofNat]
  unfold Fits at h
  rw [Nat.mod_eq_of_lt (a := n) (by omega)]
  by_cases hn : n = 0
  · subst hn; simpa using h2
  · rw [Nat.mod_eq_of_lt (by omega)]

theorem packStatus_toNat_count (n : Nat) (h : n ≤ 15) : (packStatus 0 (BitVec.ofNat 4 n)).toNat = 0 + 16 * n := by
  rw [packStatus_toNat, BitVec.toNat_ofNat, Nat.mod_eq_of_lt (by omega)]
  rfl

theorem ofNat_toNat_count (n : Nat) (h : n ≤ 8) : (BitVec.ofNat 64 n).toNat = n := by
  rw [BitVec.toNat_ofNat]
  omega

/-- A success commit that stages neither bytes nor an advance. -/
theorem successCommit_completesWith (g : Staged) (s : State) (hb : g.bytes = []) (ha : g.advance = 0) (hn : g.nb = 0) :
    CompletesWith s (successCommit g s) g.r0.toNat g.r1.toNat g.r2.toNat g.r3.toNat := by
  refine ⟨⟨rfl, rfl, rfl, rfl, rfl, rfl, rfl⟩, ⟨?_, fun o => ?_⟩, ⟨rfl, rfl, rfl, rfl⟩, ?_⟩
  · simp [ha]
  · exact successCommit_byteAt_of_no_bytes g s o hb
  · simp [Status, packStatus_toNat, hn]

/-- A success commit that stages n bytes at OFF (20_memory.md R55). -/
theorem successCommit_stored (s : State) (n : Nat) (bs : List Byte) (f : Nat → Nat) (hl : bs.length = n) (hn : n ≤ 8)
    (hfit : Fits s n) (hf : ∀ i (h : i < bs.length), bs[i].toNat = f i) :
    Stored s (successCommit (stagedWrite n bs) s) n f := by
  refine ⟨⟨rfl, rfl, rfl, rfl, rfl, rfl, rfl⟩, off_add_toNat s n hfit, ⟨?_, rfl, rfl, rfl⟩, ?_, fun i hi => ?_,
    fun o ho => ?_⟩
  · exact ofNat_toNat_count n hn
  · exact packStatus_toNat_count n (by omega)
  · rw [successCommit_byteAt]
    have h : s.off.toNat ≤ s.off.toNat + i ∧ s.off.toNat + i - s.off.toNat < (stagedWrite n bs).bytes.length := by
      simp only [stagedWrite]; omega
    rw [dif_pos h, ← hf i (by omega)]
    simp [stagedWrite]
  · rw [successCommit_byteAt, dif_neg (by simp only [stagedWrite]; omega)]

/-- A success commit of a read of n bytes with value v (20_memory.md R56). -/
theorem successCommit_consumed (s : State) (n : Nat) (v : Word) (hn : n ≤ 8) (hfit : Fits s n) :
    Consumed s (successCommit (stagedRead n v) s) n v.toNat := by
  refine ⟨⟨rfl, rfl, rfl, rfl, rfl, rfl, rfl⟩, off_add_toNat s n hfit, fun o => ?_, ⟨rfl, ?_, rfl, rfl⟩, ?_⟩
  · exact successCommit_byteAt_of_no_bytes _ s o rfl
  · exact ofNat_toNat_count n hn
  · exact packStatus_toNat_count n (by omega)

/-! ### The minimal-width procedures -/

theorem mwWrite_ok (n : Nat) (v : Word) (order : ByteOrder) (s : State) (h1 : 1 ≤ n) (h8 : n ≤ 8) (hfit : Fits s n) :
    mwWrite n v order s =
      .ok (stagedWrite n (fieldBytes order n v)) := by
  unfold mwWrite
  rw [if_neg (by omega), (checkCapacity_iff s n).2 hfit]
  rfl

theorem mwWrite_invalidLength (n : Nat) (v : Word) (order : ByteOrder) (s : State) (h : n < 1 ∨ 8 < n) :
    mwWrite n v order s = .error .invalidLength := by
  unfold mwWrite
  rw [if_pos (by omega)]

theorem mwWrite_insufficientBuffer (n : Nat) (v : Word) (order : ByteOrder) (s : State) (h1 : 1 ≤ n) (h8 : n ≤ 8)
    (hfit : ¬ Fits s n) : mwWrite n v order s = .error .insufficientBuffer := by
  unfold mwWrite
  rw [if_neg (by omega), if_pos ((checkCapacity_false_iff s n).2 hfit)]

/-- A minimal-width write that answers has checked its length and the capacity (41_minwidth.md R122). -/
theorem mwWrite_inversion {n : Nat} {v : Word} {order : ByteOrder} {s : State} {g : Staged}
    (h : mwWrite n v order s = .ok g) :
    1 ≤ n ∧ n ≤ 8 ∧ Fits s n ∧
      g = stagedWrite n (fieldBytes order n v) := by
  by_cases h1 : n < 1 ∨ 8 < n
  · rw [mwWrite_invalidLength n v order s h1] at h; cases h
  · by_cases h2 : Fits s n
    · rw [mwWrite_ok n v order s (by omega) (by omega) h2] at h
      exact ⟨by omega, by omega, h2, (Except.ok.inj h).symm⟩
    · rw [mwWrite_insufficientBuffer n v order s (by omega) (by omega) h2] at h; cases h

theorem mwRead_ok (n : Nat) (signed : Bool) (order : ByteOrder) (s : State) (h8 : n ≤ 8) (hfit : Fits s n) :
    mwRead n signed order s =
      .ok (stagedRead n (if signed = true ∧ n > 0 then signExtendBytes (s.gather order n) n else s.gather order n)) := by
  unfold mwRead
  rw [if_neg (by omega), (checkCapacity_iff s n).2 hfit]
  rfl

theorem mwRead_invalidLength (n : Nat) (signed : Bool) (order : ByteOrder) (s : State) (h : 8 < n) :
    mwRead n signed order s = .error .invalidLength := by
  unfold mwRead
  rw [if_pos h]

theorem mwRead_insufficientBuffer (n : Nat) (signed : Bool) (order : ByteOrder) (s : State) (h8 : n ≤ 8)
    (hfit : ¬ Fits s n) : mwRead n signed order s = .error .insufficientBuffer := by
  unfold mwRead
  rw [if_neg (by omega), if_pos ((checkCapacity_false_iff s n).2 hfit)]

/-- A minimal-width read that answers has checked its length and the capacity (41_minwidth.md R123). -/
theorem mwRead_inversion {n : Nat} {signed : Bool} {order : ByteOrder} {s : State} {g : Staged}
    (h : mwRead n signed order s = .ok g) :
    n ≤ 8 ∧ Fits s n ∧
      g = stagedRead n (if signed = true ∧ n > 0 then signExtendBytes (s.gather order n) n else s.gather order n) := by
  by_cases h1 : 8 < n
  · rw [mwRead_invalidLength n signed order s h1] at h; cases h
  · by_cases h2 : Fits s n
    · rw [mwRead_ok n signed order s (by omega) h2] at h
      exact ⟨by omega, h2, (Except.ok.inj h).symm⟩
    · rw [mwRead_insufficientBuffer n signed order s (by omega) h2] at h; cases h

/-! ### LEB128 -/

/-- A LEB128 write below 2^56 that fits (42_leb128.md R164). -/
theorem lebWrite_ok (x : Word) (s : State) (n : Nat) (hn : IsVarintLength x.toNat n) (hx : x.toNat < 2 ^ 56)
    (hfit : Fits s n) :
    lebWrite x s = .ok (stagedWrite n (lebBytes x n)) := by
  obtain ⟨m, hm, hmv⟩ := lebLen_of_lt x hx
  obtain rfl := hmv.unique hn
  simp [lebWrite, hm, (checkCapacity_iff s m).2 hfit]

theorem lebWrite_insufficientBuffer (x : Word) (s : State) (n : Nat) (hn : IsVarintLength x.toNat n)
    (hx : x.toNat < 2 ^ 56) (hfit : ¬ Fits s n) : lebWrite x s = .error .insufficientBuffer := by
  obtain ⟨m, hm, hmv⟩ := lebLen_of_lt x hx
  obtain rfl := hmv.unique hn
  simp [lebWrite, hm, (checkCapacity_false_iff s m).2 hfit]

theorem lebWrite_invalidLength (x : Word) (s : State) (hx : 2 ^ 56 ≤ x.toNat) :
    lebWrite x s = .error .invalidLength := by
  simp [lebWrite, lebLen_of_ge x hx]

/-- Bit 7 of a byte, as a number (42_leb128.md R160). -/
theorem getLsbD_seven : ∀ b : Byte, b.getLsbD 7 = decide (128 ≤ b.toNat) := by decide

/-- The group of a byte, as a number (42_leb128.md R160). -/
theorem group_toNat (b : Byte) : ((b.extractLsb' 0 7).setWidth 64).toNat = b.toNat % 128 := by
  simp [BitVec.extractLsb'_toNat]
  omega

/-- The loop of LEBRD stops with success at the first byte whose bit 7 is clear (42_leb128.md R165). -/
theorem lebReadFrom_ok (s : State) (fuel i : Nat) (x : Word) (k : Nat) (hk : k < fuel) (h8 : i + fuel ≤ 8)
    (hx : x.toNat < 2 ^ (7 * i)) (hfit : Fits s (i + k + 1))
    (hset : ∀ j, j < k → 128 ≤ (s.byteAt (s.off.toNat + (i + j))).toNat)
    (hclear : (s.byteAt (s.off.toNat + (i + k))).toNat < 128) :
    ∃ y : Word, lebReadFrom s fuel i x = .ok (stagedRead (i + k + 1) y) ∧
      y.toNat = x.toNat + 2 ^ (7 * i) * s.lebValue (s.off.toNat + i) (k + 1) := by
  induction fuel generalizing i x k with
  | zero => omega
  | succ fuel ih =>
    have hfit1 : s.checkCapacity (i + 1) = true := (checkCapacity_iff s _).2 (by unfold Fits at *; omega)
    have hpow : 2 ^ (7 * i) * 128 = 2 ^ (7 * (i + 1)) := by rw [Nat.mul_add, Nat.pow_add]
    have hle : 2 ^ (7 * (i + 1)) ≤ 2 ^ 64 := Nat.pow_le_pow_right (by omega) (by omega)
    have hg := Nat.mod_lt (s.byteAt (s.off.toNat + i)).toNat (show 128 > 0 by omega)
    have hmul : (s.byteAt (s.off.toNat + i)).toNat % 128 * 2 ^ (7 * i) + 2 ^ (7 * i) ≤ 2 ^ (7 * (i + 1)) := by
      rw [← hpow, Nat.mul_comm _ 128, ← Nat.succ_mul]
      exact Nat.mul_le_mul_right _ hg
    have hstep := or_shiftLeft_toNat x (((s.byteAt (s.off.toNat + i)).extractLsb' 0 7).setWidth 64) (7 * i) hx
      (by rw [group_toNat]; have := Nat.two_pow_pos (7 * i); omega)
    rw [group_toNat] at hstep
    simp only [lebReadFrom, hfit1, getLsbD_seven]
    cases k with
    | zero =>
      simp only [Nat.add_zero] at hclear
      rw [if_neg (by simp), if_pos (by simpa using hclear)]
      refine ⟨_, rfl, ?_⟩
      rw [hstep, State.lebValue, State.lebValue]
      ring
    | succ k =>
      have h0 := hset 0 (by omega)
      simp only [Nat.add_zero] at h0
      rw [if_neg (by simp), if_neg (by simp; omega)]
      obtain ⟨y, hy1, hy2⟩ := ih (i + 1) _ k (by omega) (by omega) (by rw [hstep]; omega)
        (by unfold Fits at *; omega)
        (fun j hj => by have := hset (j + 1) (by omega); rwa [show i + (j + 1) = i + 1 + j by omega] at this)
        (by rwa [show i + (k + 1) = i + 1 + k by omega] at hclear)
      refine ⟨y, ?_, ?_⟩
      · rw [show i + (k + 1) + 1 = i + 1 + k + 1 by omega]; exact hy1
      · have hv : s.lebValue (s.off.toNat + i) (k + 1 + 1) = (s.byteAt (s.off.toNat + i)).toNat % 128 +
            128 * s.lebValue (s.off.toNat + i + 1) (k + 1) := rfl
        rw [hy2, hstep, hv, ← hpow, show s.off.toNat + (i + 1) = s.off.toNat + i + 1 by omega]
        ring

/-- The loop of LEBRD runs out of bytes before a byte whose bit 7 is clear (42_leb128.md R165). -/
theorem lebReadFrom_insufficientBuffer (s : State) (fuel i : Nat) (x : Word) (k : Nat) (hk : k < fuel)
    (hfit : ¬ Fits s (i + k + 1)) (hset : ∀ j, j < k → 128 ≤ (s.byteAt (s.off.toNat + (i + j))).toNat) :
    lebReadFrom s fuel i x = .error .insufficientBuffer := by
  induction fuel generalizing i x k with
  | zero => omega
  | succ fuel ih =>
    simp only [lebReadFrom, getLsbD_seven]
    by_cases hf : Fits s (i + 1)
    · cases k with
      | zero => exact absurd hf hfit
      | succ k =>
        have h0 := hset 0 (by omega)
        simp only [Nat.add_zero] at h0
        rw [(checkCapacity_iff s _).2 hf, if_neg (by simp), if_neg (by simp; omega)]
        exact ih (i + 1) _ k (by omega) (by unfold Fits at *; omega)
          (fun j hj => by have := hset (j + 1) (by omega); rwa [show i + (j + 1) = i + 1 + j by omega] at this)
    · rw [if_pos ((checkCapacity_false_iff s _).2 hf)]

/-- Eight bytes whose bit 7 is set would need a ninth group (42_leb128.md R165). -/
theorem lebReadFrom_invalidLength (s : State) (fuel i : Nat) (x : Word) (hfit : Fits s (i + fuel))
    (hset : ∀ j, j < fuel → 128 ≤ (s.byteAt (s.off.toNat + (i + j))).toNat) :
    lebReadFrom s fuel i x = .error .invalidLength := by
  induction fuel generalizing i x with
  | zero => rfl
  | succ fuel ih =>
    have hf : s.checkCapacity (i + 1) = true := (checkCapacity_iff s _).2 (by unfold Fits at *; omega)
    have h0 := hset 0 (by omega)
    simp only [Nat.add_zero] at h0
    simp only [lebReadFrom, getLsbD_seven]
    rw [hf, if_neg (by simp), if_neg (by simp; omega)]
    exact ih (i + 1) _ (by unfold Fits at *; omega)
      (fun j hj => by have := hset (j + 1) (by omega); rwa [show i + (j + 1) = i + 1 + j by omega] at this)

/-- A LEB128 read that answers has consumed k bytes, 1 to 8, that fit (42_leb128.md R165). -/
theorem lebReadFrom_inversion {s : State} {fuel i : Nat} {x : Word} {g : Staged} (h8 : i + fuel ≤ 8)
    (h : lebReadFrom s fuel i x = .ok g) :
    ∃ k y, i < k ∧ k ≤ i + fuel ∧ Fits s k ∧
      g = stagedRead k y := by
  induction fuel generalizing i x with
  | zero => simp [lebReadFrom] at h
  | succ fuel ih =>
    simp only [lebReadFrom] at h
    split at h
    · cases h
    · next hf =>
      split at h
      · refine ⟨i + 1, _, by omega, by omega, (checkCapacity_iff s _).1 (by simpa using hf), (Except.ok.inj h).symm⟩
      · obtain ⟨k, y, h1, h2, h3⟩ := ih (by omega) h
        exact ⟨k, y, by omega, by omega, h3⟩

/-! ### VLU -/

/-- The VLU word, as a number (43_vlu.md R180). -/
theorem vluWord_toNat (x : Word) (len : Nat) (h1 : 1 ≤ len) (h8 : len ≤ 8) (hx : x.toNat < 2 ^ (7 * len)) :
    (vluWord x len).toNat = x.toNat * 2 ^ len + (2 ^ (len - 1) - 1) := by
  have hle : 2 ^ (7 * len) * 2 ^ len ≤ 2 ^ 64 := by
    rw [← Nat.pow_add]; exact Nat.pow_le_pow_right (by omega) (by omega)
  have hmul : x.toNat * 2 ^ len < 2 ^ 64 :=
    Nat.lt_of_lt_of_le (Nat.mul_lt_mul_of_pos_right hx (Nat.two_pow_pos len)) hle
  have hlow : 2 ^ (len - 1) - 1 < 2 ^ len := by
    have h2 : 2 ^ (len - 1) ≤ 2 ^ len := Nat.pow_le_pow_right (by omega) (by omega)
    have := Nat.two_pow_pos len
    omega
  have hlow64 : 2 ^ (len - 1) - 1 < 2 ^ 64 :=
    Nat.lt_of_lt_of_le hlow (Nat.pow_le_pow_right (by omega) (by omega))
  rw [vluWord, BitVec.toNat_or, BitVec.toNat_shiftLeft, BitVec.toNat_ofNat, Nat.shiftLeft_eq, Nat.mod_eq_of_lt hmul,
    Nat.mod_eq_of_lt hlow64, Nat.mul_comm, ← Nat.two_pow_add_eq_or_of_lt hlow]

theorem vluWrite_ok (x : Word) (s : State) (n : Nat) (hn : IsVarintLength x.toNat n) (hx : x.toNat < 2 ^ 56)
    (hfit : Fits s n) :
    vluWrite x s = .ok (stagedWrite n (fieldBytes .le n (vluWord x n))) := by
  obtain ⟨m, hm, hmv⟩ := lebLen_of_lt x hx
  obtain rfl := hmv.unique hn
  simp only [vluWrite, vluLen, hm]
  exact mwWrite_ok m _ .le s hn.1 hn.2.1 hfit

theorem vluWrite_insufficientBuffer (x : Word) (s : State) (n : Nat) (hn : IsVarintLength x.toNat n)
    (hx : x.toNat < 2 ^ 56) (hfit : ¬ Fits s n) : vluWrite x s = .error .insufficientBuffer := by
  obtain ⟨m, hm, hmv⟩ := lebLen_of_lt x hx
  obtain rfl := hmv.unique hn
  simp only [vluWrite, vluLen, hm]
  exact mwWrite_insufficientBuffer m _ .le s hn.1 hn.2.1 hfit

theorem vluWrite_invalidLength (x : Word) (s : State) (hx : 2 ^ 56 ≤ x.toNat) :
    vluWrite x s = .error .invalidLength := by
  simp [vluWrite, vluLen, lebLen_of_ge x hx]

/-- The bytes after the first, as a number (43_vlu.md R185). -/
theorem vluTail_toNat (s : State) (len : Nat) (h8 : len ≤ 9) :
    (s.vluTail len).toNat = s.leValue (s.off.toNat + 1) (len - 1) := by
  rw [State.leValue_eq_sum]
  have := (gatherLE_toNat (fun i => s.byteAt (s.off.toNat + 1 + i)) (len - 1) (by omega)).1
  rw [← this]
  simp only [State.vluTail]
  congr 2
  funext t j
  rw [show s.off.toNat + (j + 1) = s.off.toNat + 1 + j by omega]

/-- The value a VLU read assembles: the little-endian word of len bytes without its low len bits (43_vlu.md R180,
R185). -/
theorem vluValue_toNat (s : State) (len : Nat) (h1 : 1 ≤ len) (h8 : len ≤ 8) :
    (((s.byteAt s.off.toNat).setWidth 64 >>> len) ||| (s.vluTail len <<< (8 - len))).toNat =
      s.leValue s.off.toNat len / 2 ^ len := by
  have hb := (s.byteAt s.off.toNat).isLt
  have ht := s.leValue_lt (s.off.toNat + 1) (len - 1)
  rw [← vluTail_toNat s len (by omega)] at ht
  have hu : ((s.byteAt s.off.toNat).setWidth 64 >>> len).toNat = (s.byteAt s.off.toNat).toNat / 2 ^ len := by
    rw [BitVec.toNat_ushiftRight, zext_byte_toNat, Nat.shiftRight_eq_div_pow]
  have h256 : 2 ^ len * 2 ^ (8 - len) = 256 := by
    rw [← Nat.pow_add, show len + (8 - len) = 8 by omega]
  have hlow : ((s.byteAt s.off.toNat).setWidth 64 >>> len).toNat < 2 ^ (8 - len) := by
    rw [hu]
    apply Nat.div_lt_of_lt_mul
    rw [h256]
    exact hb
  have hhigh : (s.vluTail len).toNat * 2 ^ (8 - len) < 2 ^ 64 := by
    have h3 := Nat.mul_lt_mul_of_pos_right ht (Nat.two_pow_pos (8 - len))
    rw [← Nat.pow_add] at h3
    exact Nat.lt_of_lt_of_le h3 (Nat.pow_le_pow_right (by omega) (by omega))
  rw [or_shiftLeft_toNat _ _ _ hlow hhigh, hu, vluTail_toNat s len (by omega)]
  obtain ⟨m, rfl⟩ : ∃ m, len = m + 1 := ⟨len - 1, by omega⟩
  rw [State.leValue]
  simp only [Nat.add_sub_cancel]
  rw [← h256, Nat.mul_assoc, Nat.add_mul_div_left _ _ (Nat.two_pow_pos _), Nat.mul_comm (2 ^ (8 - (m + 1)))]

/-- A VLU read whose first byte ends in t one bits and a zero bit, t below 8 (43_vlu.md R182, R185). -/
theorem vluRead_ok (s : State) (hc : cto8 (s.byteAt s.off.toNat) < 8) (hfit : Fits s (cto8 (s.byteAt s.off.toNat) + 1)) :
    ∃ y : Word, vluRead s = .ok (stagedRead (cto8 (s.byteAt s.off.toNat) + 1) y) ∧
      y.toNat = s.leValue s.off.toNat (cto8 (s.byteAt s.off.toNat) + 1) / 2 ^ (cto8 (s.byteAt s.off.toNat) + 1) := by
  refine ⟨_, ?_, vluValue_toNat s _ (by omega) (by omega)⟩
  unfold vluRead
  have h1 : s.checkCapacity 1 = true := (checkCapacity_iff s _).2 (by unfold Fits at *; omega)
  rw [h1, if_neg (by simp)]
  simp only
  rw [if_neg (by omega), (checkCapacity_iff s _).2 hfit, if_neg (by simp)]

theorem vluRead_empty (s : State) (h : ¬ Fits s 1) : vluRead s = .error .insufficientBuffer := by
  unfold vluRead
  rw [if_pos ((checkCapacity_false_iff s 1).2 h)]

theorem vluRead_invalidLength (s : State) (h : Fits s 1) (hb : s.byteAt s.off.toNat = 0xFF) :
    vluRead s = .error .invalidLength := by
  unfold vluRead
  rw [(checkCapacity_iff s 1).2 h, if_neg (by simp), hb]
  rfl

theorem vluRead_insufficientBuffer (s : State) (h : Fits s 1) (hc : cto8 (s.byteAt s.off.toNat) < 8)
    (hfit : ¬ Fits s (cto8 (s.byteAt s.off.toNat) + 1)) : vluRead s = .error .insufficientBuffer := by
  unfold vluRead
  rw [(checkCapacity_iff s 1).2 h, if_neg (by simp)]
  simp only
  rw [if_neg (by omega), if_pos ((checkCapacity_false_iff s _).2 hfit)]

/-- A VLU read that answers has consumed k bytes, 1 to 8, that fit (43_vlu.md R185). -/
theorem vluRead_inversion {s : State} {g : Staged} (h : vluRead s = .ok g) :
    ∃ k y, 1 ≤ k ∧ k ≤ 8 ∧ Fits s k ∧
      g = stagedRead k y := by
  unfold vluRead at h
  split at h
  · cases h
  · simp only at h
    split at h
    · cases h
    · split at h
      · cases h
      · next h1 h2 h3 =>
        exact ⟨_, _, by omega, by omega, (checkCapacity_iff s _).1 (by simpa using h3), (Except.ok.inj h).symm⟩

/-! ### IEEE-754 -/

/-- The class code, as a number (40_ieee754.md R102). -/
theorem classify_code_toNat {ew mw : Nat} (e : BitVec ew) (m : BitVec mw) :
    (classify e m).code.toNat = classNumber ew e.toNat m.toNat := by
  have he : e = 0 ↔ e.toNat = 0 := by simp [← BitVec.toNat_inj]
  have hm : m = 0 ↔ m.toNat = 0 := by simp [← BitVec.toNat_inj]
  have ha : e = BitVec.allOnes ew ↔ e.toNat = 2 ^ ew - 1 := by rw [← BitVec.toNat_inj, BitVec.toNat_allOnes]
  simp only [classify, classNumber, he, hm, ha]
  split
  · split <;> rfl
  · split
    · split <;> rfl
    · rfl

/-- The fields of a pattern, as numbers (40_ieee754.md R100, R101). -/
theorem decompose_toNat (fmt : FloatFormat) (p : Word) (hw : fmt.expWidth + fmt.manWidth < 64) :
    (decompose fmt p).r0.toNat = p.toNat / 2 ^ (fmt.expWidth + fmt.manWidth) % 2 ∧
    (decompose fmt p).r1.toNat = p.toNat / 2 ^ fmt.manWidth % 2 ^ fmt.expWidth ∧
    (decompose fmt p).r2.toNat = p.toNat % 2 ^ fmt.manWidth ∧
    (decompose fmt p).r3.toNat =
      classNumber fmt.expWidth (p.toNat / 2 ^ fmt.manWidth % 2 ^ fmt.expWidth) (p.toNat % 2 ^ fmt.manWidth) := by
  have hsmall : ∀ (w v : Nat), w < 64 → v % 2 ^ w % 2 ^ 64 = v % 2 ^ w := fun w v h =>
    Nat.mod_eq_of_lt (Nat.lt_of_lt_of_le (Nat.mod_lt _ (Nat.two_pow_pos w)) (Nat.pow_le_pow_right (by omega) (by omega)))
  refine ⟨?_, ?_, ?_, ?_⟩
  · simp only [decompose, BitVec.toNat_setWidth, BitVec.extractLsb'_toNat, Nat.shiftRight_eq_div_pow]
    rw [hsmall 1 _ (by omega), Nat.pow_one]
  · simp only [decompose, BitVec.toNat_setWidth, BitVec.extractLsb'_toNat, Nat.shiftRight_eq_div_pow]
    rw [hsmall _ _ (by omega)]
  · simp only [decompose, BitVec.toNat_setWidth, BitVec.extractLsb'_toNat, Nat.shiftRight_zero]
    rw [hsmall _ _ (by omega)]
  · simp only [decompose, classify_code_toNat, BitVec.extractLsb'_toNat, Nat.shiftRight_eq_div_pow, Nat.pow_zero,
      Nat.div_one]

/-- The pattern a recomposition makes, as a number (40_ieee754.md R105, R107). -/
theorem recompose_ok (fmt : FloatFormat) (a b c : Word) (hw : fmt.expWidth + fmt.manWidth < 64)
    (hb : b.toNat < 2 ^ fmt.expWidth) (hc : c.toNat < 2 ^ fmt.manWidth) :
    ∃ y : Word, recompose fmt a b c = .ok { r0 := y } ∧
      y.toNat = a.toNat % 2 * 2 ^ (fmt.expWidth + fmt.manWidth) + b.toNat * 2 ^ fmt.manWidth + c.toNat := by
  refine ⟨(a.extractLsb' 0 1 ++ b.extractLsb' 0 fmt.expWidth ++ c.extractLsb' 0 fmt.manWidth).setWidth 64, ?_, ?_⟩
  · simp only [recompose]
    rw [if_neg (by omega), if_neg (by omega)]
  · have h1 : b.toNat * 2 ^ fmt.manWidth + c.toNat < 2 ^ (fmt.expWidth + fmt.manWidth) := by
      rw [Nat.pow_add]
      have := Nat.mul_le_mul_right (2 ^ fmt.manWidth) (Nat.succ_le_of_lt hb)
      rw [Nat.succ_mul] at this
      omega
    have hv : (a.extractLsb' 0 1 ++ b.extractLsb' 0 fmt.expWidth ++ c.extractLsb' 0 fmt.manWidth).toNat =
        a.toNat % 2 * 2 ^ (fmt.expWidth + fmt.manWidth) + b.toNat * 2 ^ fmt.manWidth + c.toNat := by
      simp only [BitVec.toNat_append, BitVec.extractLsb'_toNat, Nat.shiftRight_zero, Nat.shiftLeft_eq, Nat.pow_one,
        Nat.mod_eq_of_lt hb, Nat.mod_eq_of_lt hc]
      rw [Nat.mul_comm (a.toNat % 2), ← Nat.two_pow_add_eq_or_of_lt hb, Nat.mul_comm (_ + _) (2 ^ fmt.manWidth),
        ← Nat.two_pow_add_eq_or_of_lt hc, Nat.pow_add]
      ring
    rw [BitVec.toNat_setWidth, hv, Nat.mod_eq_of_lt]
    have h2 : a.toNat % 2 < 2 := Nat.mod_lt _ (by omega)
    have h3 : 2 * 2 ^ (fmt.expWidth + fmt.manWidth) ≤ 2 ^ 64 := by
      rw [Nat.mul_comm, ← Nat.pow_succ]
      exact Nat.pow_le_pow_right (by omega) (by omega)
    have h4 : a.toNat % 2 * 2 ^ (fmt.expWidth + fmt.manWidth) ≤ 1 * 2 ^ (fmt.expWidth + fmt.manWidth) :=
      Nat.mul_le_mul_right _ (by omega)
    omega

/-- An exponent or a mantissa that does not fit its field overflows (40_ieee754.md R105, R107). -/
theorem recompose_overflow (fmt : FloatFormat) (a b c : Word)
    (h : 2 ^ fmt.expWidth ≤ b.toNat ∨ 2 ^ fmt.manWidth ≤ c.toNat) : recompose fmt a b c = .error .overflow := by
  unfold recompose
  split
  · rfl
  · rw [if_pos (by omega)]

end Sys2Proof.Machine
end

