-- ==== Sys2Proof/Laws/Commands.lean ====
section
/-!
SUPPORT. What a command, a host action and a step can do, said once: every command ends in one of the two commits,
with a bounded and fitting movement of the cursor; an action that answers a next state is one of the cases below.
-/

namespace Sys2Proof.Machine

/-! ### The status after a commit -/

@[simp] theorem successCommit_err (g : Staged) (s : State) : (successCommit g s).err = 0 := by
  simp only [State.err, successCommit_st]
  generalize g.nb = n
  revert n
  decide

@[simp] theorem successCommit_nb (g : Staged) (s : State) : (successCommit g s).nb = g.nb := by
  simp only [State.nb, successCommit_st]
  generalize g.nb = n
  revert n
  decide

@[simp] theorem errorCommit_err (e : ErrorKind) (s : State) : (errorCommit e s).err = e.code := by
  simp only [State.err, errorCommit_st]
  cases e <;> decide

@[simp] theorem errorCommit_nb (e : ErrorKind) (s : State) : (errorCommit e s).nb = 0 := by
  simp only [State.nb, errorCommit_st]
  cases e <;> decide

/-! ### What a command stages -/

/-- What a command stages moves at most 8 bytes, that fit, and reports their number in ST.NB (20_memory.md R62,
10_state.md R26). -/
def StagedLegal (s : State) (g : Staged) : Prop :=
  g.advance ≤ 8 ∧ Fits s g.advance ∧ g.nb = BitVec.ofNat 4 g.advance ∧ (g.bytes = [] ∨ g.bytes.length = g.advance)

/-- The error kinds a decoded command raises (60_exceptions.md R201). -/
def RaisedByCommand (e : ErrorKind) : Prop := e = .insufficientBuffer ∨ e = .invalidLength ∨ e = .overflow

theorem stagedLegal_none (s : State) (v0 v1 v2 v3 : Word) :
    StagedLegal s { r0 := v0, r1 := v1, r2 := v2, r3 := v3 } := by
  refine ⟨?_, ?_, rfl, .inl rfl⟩ <;> simp [Fits]

theorem stagedLegal_write (s : State) (n : Nat) (bs : List Byte) (hn : n ≤ 8) (hf : Fits s n) (hl : bs.length = n) :
    StagedLegal s (stagedWrite n bs) := ⟨hn, hf, rfl, .inr hl⟩

theorem stagedLegal_read (s : State) (n : Nat) (v : Word) (hn : n ≤ 8) (hf : Fits s n) :
    StagedLegal s (stagedRead n v) := ⟨hn, hf, rfl, .inl rfl⟩

/-- A rule that stages what is legal, or raises one of the commands' error kinds. -/
def RuleLegal (s : State) (r : Except ErrorKind Staged) : Prop :=
  match r with
  | .ok g => StagedLegal s g
  | .error e => RaisedByCommand e

theorem ruleLegal_decompose (fmt : FloatFormat) (p : Word) (s : State) : RuleLegal s (.ok (decompose fmt p)) :=
  stagedLegal_none s _ _ _ _

theorem ruleLegal_length (v : Word) (s : State) : RuleLegal s (.ok { r0 := v }) := stagedLegal_none s v 0 0 0

theorem ruleLegal_mwWrite (n : Nat) (v : Word) (order : ByteOrder) (s : State) : RuleLegal s (mwWrite n v order s) := by
  cases h : mwWrite n v order s with
  | ok g =>
    obtain ⟨_, h8, hf, rfl⟩ := mwWrite_inversion h
    exact stagedLegal_write s n _ h8 hf (fieldBytes_length order n v)
  | error e =>
    unfold mwWrite at h
    split at h
    · cases h; exact .inr (.inl rfl)
    · split at h
      · cases h; exact .inl rfl
      · cases h

theorem ruleLegal_mwRead (n : Nat) (signed : Bool) (order : ByteOrder) (s : State) :
    RuleLegal s (mwRead n signed order s) := by
  cases h : mwRead n signed order s with
  | ok g =>
    obtain ⟨h8, hf, rfl⟩ := mwRead_inversion h
    exact stagedLegal_read s n _ h8 hf
  | error e =>
    unfold mwRead at h
    split at h
    · cases h; exact .inr (.inl rfl)
    · split at h
      · cases h; exact .inl rfl
      · cases h

theorem ruleLegal_recompose (fmt : FloatFormat) (a b c : Word) (s : State) : RuleLegal s (recompose fmt a b c) := by
  cases h : recompose fmt a b c with
  | ok g =>
    unfold recompose at h
    split at h
    · cases h
    · split at h
      · cases h
      · cases h; exact stagedLegal_none s _ 0 0 0
  | error e =>
    unfold recompose at h
    split at h
    · cases h; exact .inr (.inr rfl)
    · split at h
      · cases h; exact .inr (.inr rfl)
      · cases h

theorem ruleLegal_lengthResult (x : Word) (s : State) : RuleLegal s (lengthResult (lebLen x)) := by
  by_cases hx : x.toNat < 2 ^ 56
  · obtain ⟨n, hn, _⟩ := lebLen_of_lt x hx
    rw [hn]
    exact stagedLegal_none s _ 0 0 0
  · rw [lebLen_of_ge x (by omega)]
    exact .inr (.inl rfl)

theorem ruleLegal_lebWrite (x : Word) (s : State) : RuleLegal s (lebWrite x s) := by
  by_cases hx : x.toNat < 2 ^ 56
  · obtain ⟨n, _, hn⟩ := lebLen_of_lt x hx
    by_cases hf : Fits s n
    · rw [lebWrite_ok x s n hn hx hf]
      exact stagedLegal_write s n _ hn.2.1 hf (lebBytes_length x n)
    · rw [lebWrite_insufficientBuffer x s n hn hx hf]
      exact .inl rfl
  · rw [lebWrite_invalidLength x s (by omega)]
    exact .inr (.inl rfl)

theorem ruleLegal_vluWrite (x : Word) (s : State) : RuleLegal s (vluWrite x s) := by
  by_cases hx : x.toNat < 2 ^ 56
  · obtain ⟨n, _, hn⟩ := lebLen_of_lt x hx
    by_cases hf : Fits s n
    · rw [vluWrite_ok x s n hn hx hf]
      exact stagedLegal_write s n _ hn.2.1 hf (fieldBytes_length .le n _)
    · rw [vluWrite_insufficientBuffer x s n hn hx hf]
      exact .inl rfl
  · rw [vluWrite_invalidLength x s (by omega)]
    exact .inr (.inl rfl)

theorem raised_lebReadFrom (s : State) (fuel i : Nat) (x : Word) (e : ErrorKind)
    (h : lebReadFrom s fuel i x = .error e) : RaisedByCommand e := by
  induction fuel generalizing i x with
  | zero => cases h; exact .inr (.inl rfl)
  | succ fuel ih =>
    simp only [lebReadFrom] at h
    split at h
    · cases h; exact .inl rfl
    · split at h
      · cases h
      · exact ih _ _ h

theorem ruleLegal_lebRead (s : State) : RuleLegal s (lebReadFrom s 8 0 0) := by
  cases h : lebReadFrom s 8 0 0 with
  | ok g =>
    obtain ⟨k, y, _, h8, hf, rfl⟩ := lebReadFrom_inversion (by omega) h
    exact stagedLegal_read s k y (by omega) hf
  | error e => exact raised_lebReadFrom s 8 0 0 e h

theorem ruleLegal_vluRead (s : State) : RuleLegal s (vluRead s) := by
  cases h : vluRead s with
  | ok g =>
    obtain ⟨k, y, _, h8, hf, rfl⟩ := vluRead_inversion h
    exact stagedLegal_read s k y h8 hf
  | error e =>
    unfold vluRead at h
    split at h
    · cases h; exact .inl rfl
    · simp only at h
      split at h
      · cases h; exact .inr (.inl rfl)
      · split at h
        · cases h; exact .inl rfl
        · cases h

/-- Every command runs a legal rule and ends in its commit. -/
theorem exec_finish (i : Instr) (s : State) : ∃ r, exec i s = finish r s ∧ RuleLegal s r := by
  cases i with
  | fdec64 => exact ⟨_, rfl, ruleLegal_decompose _ _ s⟩
  | frec64 => exact ⟨_, rfl, ruleLegal_recompose _ _ _ _ s⟩
  | fdec32 => exact ⟨_, rfl, ruleLegal_decompose _ _ s⟩
  | frec32 => exact ⟨_, rfl, ruleLegal_recompose _ _ _ _ s⟩
  | mlenu => exact ⟨_, rfl, ruleLegal_length _ s⟩
  | mlens => exact ⟨_, rfl, ruleLegal_length _ s⟩
  | wrbe n => exact ⟨_, rfl, ruleLegal_mwWrite _ _ _ s⟩
  | wrle n => exact ⟨_, rfl, ruleLegal_mwWrite _ _ _ s⟩
  | wrbemu => exact ⟨_, rfl, ruleLegal_mwWrite _ _ _ s⟩
  | wrbems => exact ⟨_, rfl, ruleLegal_mwWrite _ _ _ s⟩
  | wrlemu => exact ⟨_, rfl, ruleLegal_mwWrite _ _ _ s⟩
  | wrlems => exact ⟨_, rfl, ruleLegal_mwWrite _ _ _ s⟩
  | rdbeu n => exact ⟨_, rfl, ruleLegal_mwRead _ _ _ s⟩
  | rdbes n => exact ⟨_, rfl, ruleLegal_mwRead _ _ _ s⟩
  | rdleu n => exact ⟨_, rfl, ruleLegal_mwRead _ _ _ s⟩
  | rdles n => exact ⟨_, rfl, ruleLegal_mwRead _ _ _ s⟩
  | leblen => exact ⟨_, rfl, ruleLegal_lengthResult _ s⟩
  | lebwr => exact ⟨_, rfl, ruleLegal_lebWrite _ s⟩
  | lebrd => exact ⟨_, rfl, ruleLegal_lebRead s⟩
  | vlulen => exact ⟨_, rfl, ruleLegal_lengthResult _ s⟩
  | vluwr => exact ⟨_, rfl, ruleLegal_vluWrite _ s⟩
  | vlurd => exact ⟨_, rfl, ruleLegal_vluRead s⟩

/-- A command ends in the success commit of something legal, or in the error commit of a kind commands raise. -/
theorem exec_cases (i : Instr) (s : State) :
    (∃ g, StagedLegal s g ∧ exec i s = .next (successCommit g s)) ∨
      ∃ e, RaisedByCommand e ∧ exec i s = .next (errorCommit e s) := by
  obtain ⟨r, hr, hl⟩ := exec_finish i s
  cases r with
  | ok g => exact .inl ⟨g, hl, hr⟩
  | error e => exact .inr ⟨e, hl, hr⟩

/-- An issued word runs its command, or ends in the error commit of IllegalCommand (30_encoding.md R84). -/
theorem issueCommand_cases (w : CmdWord) (s : State) :
    (∃ i, decode w = .ok i ∧ issueCommand w s = exec i (s.withCmd w)) ∨
      ∃ d, decode w = .error d ∧ issueCommand w s = .next (errorCommit .illegalCommand (s.withCmd w)) := by
  unfold issueCommand
  cases decode w with
  | ok i => exact .inl ⟨i, rfl, rfl⟩
  | error d => exact .inr ⟨d, rfl, rfl⟩

/-- The step of a state with a command word placed is the issue of that word (30_encoding.md R84). -/
theorem step_withFetchWord (s : State) (w : CmdWord) :
    step (s.withFetchWord 32 w.toNat) = issueCommand w (s.withReply .done) := by
  have hw : (BitVec.ofNat 64 (w.toNat % 2 ^ 32)).setWidth 32 = w := by
    apply BitVec.eq_of_toNat_eq
    have := w.isLt
    rw [BitVec.toNat_setWidth, BitVec.toNat_ofNat]
    omega
  show writeRegister .cmd _ _ = _
  simp only [writeRegister, hw]
  rfl

/-- What a step from one state to the next can be, but for the queue and the reply it starts from: the state as it is,
a register or the cursor written, a byte of BUF written below CAP, a reset of the block, or the end of a command. -/
inductive StepKind (s t : State) : Prop where
  | same (h : t = s)
  | regA (v : Word) (h : t = s.withA v)
  | regB (v : Word) (h : t = s.withB v)
  | regC (v : Word) (h : t = s.withC v)
  | offset (v : Word) (hv : v.toNat ≤ s.cap.toNat) (h : t = s.withOff v)
  | byte (o : Nat) (b : Byte) (ho : o < s.cap.toNat) (h : t = s.withByte o b)
  | reset (h : t = vnbReset s)
  | success (w : CmdWord) (g : Staged) (hg : StagedLegal (s.withCmd w) g) (h : t = successCommit g (s.withCmd w))
  | error (w : CmdWord) (e : ErrorKind) (he : RaisedByCommand e ∨ e = .illegalCommand)
      (h : t = errorCommit e (s.withCmd w))

/-- Every way a host write can end. -/
theorem hostWrite_cases {offset : Word} {bits : Nat} {data : Word} {s t : State}
    (h : hostWrite offset bits data s = .next t) : StepKind (s.withReply .done) t := by
  unfold hostWrite at h
  split at h
  · cases h
  · next r _ =>
    cases r with
    | a => cases h; exact .regA data rfl
    | b => cases h; exact .regB data rfl
    | c => cases h; exact .regC data rfl
    | cmd =>
      simp only [writeRegister] at h
      rcases issueCommand_cases (data.setWidth 32) (s.withReply .done) with ⟨i, _, hi⟩ | ⟨d, _, hd⟩
      · rw [hi] at h
        rcases exec_cases i ((s.withReply .done).withCmd (data.setWidth 32)) with ⟨g, hg, he⟩ | ⟨e, hr, he⟩
        · rw [he] at h; cases h; exact .success _ g hg rfl
        · rw [he] at h; cases h; exact .error _ e (.inl hr) rfl
      · rw [hd] at h; cases h; exact .error _ _ (.inr rfl) rfl
    | st => cases h; exact .same rfl
    | r0 => cases h; exact .same rfl
    | r1 => cases h; exact .same rfl
    | r2 => cases h; exact .same rfl
    | r3 => cases h; exact .same rfl

/-- Every way a host read can end: nothing of the block changes (20_memory.md R64). -/
theorem hostRead_cases {offset : Word} {bits : Nat} {s t : State} (h : hostRead offset bits s = .next t) :
    ∃ r, t = s.withReply r := by
  unfold hostRead at h
  split at h
  · cases h
  · next r _ => cases h; exact ⟨_, rfl⟩

/-- A step that answers a next state leaves it, up to the queue and the reply, in one of the ways of `StepKind`. -/
theorem step_cases {s t : State} (h : step s = .next t) :
    t = s ∨ ∃ q r, StepKind ((s.withQueue q).withReply r) t := by
  unfold step at h
  split at h
  · cases h; exact .inl rfl
  · next act rest _ =>
    right
    cases act with
    | regWrite o b d => exact ⟨rest, .done, hostWrite_cases h⟩
    | regRead o b => obtain ⟨r, hr⟩ := hostRead_cases h; exact ⟨rest, r, .same hr⟩
    | busWrite a b d => exact ⟨rest, .done, hostWrite_cases h⟩
    | busRead a b => obtain ⟨r, hr⟩ := hostRead_cases h; exact ⟨rest, r, .same hr⟩
    | cursorReset => cases h; exact ⟨rest, .done, .offset 0 (by simp) rfl⟩
    | seek o =>
      simp only [runAction, cursorSeek] at h
      split at h
      · next ho => cases h; exact ⟨rest, .done, .offset o ho rfl⟩
      · cases h; exact ⟨rest, .failed, .same rfl⟩
    | offset => cases h; exact ⟨rest, _, .same rfl⟩
    | remaining => cases h; exact ⟨rest, _, .same rfl⟩
    | poke o b =>
      simp only [runAction, pokeByte] at h
      split at h
      · next ho => cases h; exact ⟨rest, .done, .byte o.toNat b ho rfl⟩
      · cases h
    | peek o =>
      simp only [runAction, peekByte] at h
      split at h
      · cases h; exact ⟨rest, _, .same rfl⟩
      · cases h
    | vnbReset => cases h; exact ⟨rest, .done, .reset rfl⟩
    | contendedCommand w => cases h

/-- A run of one more step starts with a step that answers a next state. -/
theorem run_succ {k : Nat} {s t : State} (h : Host.Core.run Sys2Proof.core (k + 1) s = .next t) :
    ∃ s', step s = .next s' ∧ Host.Core.run Sys2Proof.core k s' = .next t := by
  have h2 := (Host.Core.run.eq_2 Sys2Proof.core s k).symm.trans h
  split at h2
  · next s' hs => exact ⟨s', hs, h2⟩
  · cases h2
  · cases h2

/-- The register map finds a register for exactly the whole-register accesses. -/
theorem regAt_isSome (o : Word) (bits : Nat) :
    (regAt o bits).isSome ↔ (bits = 64 ∧ o.toNat ∈ [0x00, 0x08, 0x10, 0x20, 0x28, 0x30, 0x38] ∨
      bits = 32 ∧ o.toNat ∈ [0x18, 0x1C]) := by
  simp only [regAt, Option.isSome_map, List.find?_isSome]
  generalize o.toNat = n
  constructor
  · rintro ⟨row, hr, h⟩
    simp only [Bool.and_eq_true, beq_iff_eq] at h
    obtain ⟨rfl, rfl⟩ := h
    revert hr row
    decide
  · simp only [List.mem_cons, List.not_mem_nil, or_false]
    rintro (⟨rfl, h | h | h | h | h | h | h⟩ | ⟨rfl, h | h⟩) <;> subst h <;> decide

end Sys2Proof.Machine
end

