-- ==== Sys2Proof/Laws/PerInstr.lean ====
section
/-!
SUPPORT. Statements about every command, one lemma per constructor of `Instr`.
-/

/-- The fields of a well-formed command's word: OPC is its operation code, N its byte count, RSV is 0
(30_encoding.md R80, R86). -/
def Sys2Proof.Laws.EncodedFields.Statement (i : Sys2Proof.Instr) : Prop :=
  i.wellFormed = true →
    Sys2Proof.opcOf (Sys2Proof.encode i) = i.opcode ∧ Sys2Proof.countOf (Sys2Proof.encode i) = i.count ∧
      Sys2Proof.rsvOf (Sys2Proof.encode i) = 0

namespace Sys2Proof.Laws

/-- A counted command's word, for each of the sixteen counts. -/
theorem encoded_fields_of_count (opc : BitVec 8) (n : Nat) (h : n ≤ 15) :
    Sys2Proof.opcOf (opc.setWidth 32 ||| (BitVec.ofNat 32 n <<< 8)) = opc ∧
      Sys2Proof.countOf (opc.setWidth 32 ||| (BitVec.ofNat 32 n <<< 8)) = n ∧
        Sys2Proof.rsvOf (opc.setWidth 32 ||| (BitVec.ofNat 32 n <<< 8)) = 0 := by
  have hb := opc.isLt
  have hw : (opc.setWidth 32 ||| (BitVec.ofNat 32 n <<< 8)).toNat = n * 256 + opc.toNat := by
    rw [BitVec.toNat_or, BitVec.toNat_setWidth, BitVec.toNat_shiftLeft, BitVec.toNat_ofNat, Nat.shiftLeft_eq,
      Nat.mod_eq_of_lt (a := opc.toNat) (by omega), Nat.mod_eq_of_lt (a := n) (by omega),
      Nat.mod_eq_of_lt (a := n * 2 ^ 8) (by omega), Nat.or_comm, Nat.mul_comm, ← Nat.two_pow_add_eq_or_of_lt hb]
  refine ⟨BitVec.eq_of_toNat_eq ?_, ?_, BitVec.eq_of_toNat_eq ?_⟩
  · simp only [opcOf, BitVec.extractLsb'_toNat, hw, Nat.shiftRight_eq_div_pow]; omega
  · simp only [countOf, BitVec.extractLsb'_toNat, hw, Nat.shiftRight_eq_div_pow]; omega
  · have h0 : (0 : BitVec 20).toNat = 0 := rfl
    simp only [rsvOf, BitVec.extractLsb'_toNat, hw, Nat.shiftRight_eq_div_pow, h0]; omega

/-- Every well-formed command's fields, whichever constructor it is. -/
theorem encoded_fields (i : Instr) (h : i.wellFormed = true) :
    opcOf (encode i) = i.opcode ∧ countOf (encode i) = i.count ∧ rsvOf (encode i) = 0 :=
  encoded_fields_of_count i.opcode i.count (by simpa [Instr.wellFormed] using h)

theorem EncodedFields.fdec64 : EncodedFields.Statement .fdec64 := encoded_fields _
theorem EncodedFields.frec64 : EncodedFields.Statement .frec64 := encoded_fields _
theorem EncodedFields.fdec32 : EncodedFields.Statement .fdec32 := encoded_fields _
theorem EncodedFields.frec32 : EncodedFields.Statement .frec32 := encoded_fields _
theorem EncodedFields.mlenu : EncodedFields.Statement .mlenu := encoded_fields _
theorem EncodedFields.mlens : EncodedFields.Statement .mlens := encoded_fields _
theorem EncodedFields.wrbe (n : Nat) : EncodedFields.Statement (.wrbe n) := encoded_fields _
theorem EncodedFields.wrle (n : Nat) : EncodedFields.Statement (.wrle n) := encoded_fields _
theorem EncodedFields.wrbemu : EncodedFields.Statement .wrbemu := encoded_fields _
theorem EncodedFields.wrbems : EncodedFields.Statement .wrbems := encoded_fields _
theorem EncodedFields.wrlemu : EncodedFields.Statement .wrlemu := encoded_fields _
theorem EncodedFields.wrlems : EncodedFields.Statement .wrlems := encoded_fields _
theorem EncodedFields.rdbeu (n : Nat) : EncodedFields.Statement (.rdbeu n) := encoded_fields _
theorem EncodedFields.rdbes (n : Nat) : EncodedFields.Statement (.rdbes n) := encoded_fields _
theorem EncodedFields.rdleu (n : Nat) : EncodedFields.Statement (.rdleu n) := encoded_fields _
theorem EncodedFields.rdles (n : Nat) : EncodedFields.Statement (.rdles n) := encoded_fields _
theorem EncodedFields.leblen : EncodedFields.Statement .leblen := encoded_fields _
theorem EncodedFields.lebwr : EncodedFields.Statement .lebwr := encoded_fields _
theorem EncodedFields.lebrd : EncodedFields.Statement .lebrd := encoded_fields _
theorem EncodedFields.vlulen : EncodedFields.Statement .vlulen := encoded_fields _
theorem EncodedFields.vluwr : EncodedFields.Statement .vluwr := encoded_fields _
theorem EncodedFields.vlurd : EncodedFields.Statement .vlurd := encoded_fields _

end Sys2Proof.Laws
end

