-- ==== Sys2Proof/Laws/Decoding.lean ====
section
/-!
SUPPORT. The command word is its three fields, and what the opcode map answers.
-/

namespace Sys2Proof

/-- A word is made of its three fields (30_encoding.md R80). -/
theorem word_toNat_fields (w : CmdWord) :
    w.toNat = (opcOf w).toNat + 256 * countOf w + 4096 * (rsvOf w).toNat := by
  have hw := w.isLt
  simp only [opcOf, countOf, rsvOf, BitVec.extractLsb'_toNat, Nat.shiftRight_eq_div_pow]
  omega

theorem countOf_lt (w : CmdWord) : countOf w < 16 := (w.extractLsb' 8 4).isLt

/-- Two words with the same fields are the same word. -/
theorem word_ext {v w : CmdWord} (h1 : opcOf v = opcOf w) (h2 : countOf v = countOf w) (h3 : rsvOf v = rsvOf w) :
    v = w := by
  apply BitVec.eq_of_toNat_eq
  rw [word_toNat_fields v, word_toNat_fields w, h1, h2, h3]

/-- What the opcode map answers has that operation code, and a counted entry gives its count. -/
theorem opcodeMap_spec (opc : BitVec 8) :
    match opcodeMap opc with
    | none => True
    | some (.plain i) => i.opcode = opc ∧ i.count = 0
    | some (.counted f) => ∀ n, (f n).opcode = opc ∧ (f n).count = n := by
  cases h : opcodeMap opc with
  | none => trivial
  | some e =>
    unfold opcodeMap at h
    split at h
    all_goals first
      | (cases h; done)
      | (cases h
         next hopc => exact ⟨BitVec.eq_of_toNat_eq (by rw [hopc]; rfl), rfl⟩)
      | (cases h
         next hopc => exact fun n => ⟨BitVec.eq_of_toNat_eq (by rw [hopc]; rfl), rfl⟩)

/-- A command's operation code maps to it. -/
theorem opcodeMap_opcode (i : Instr) :
    opcodeMap i.opcode = some (.plain i) ∨ ∃ f, opcodeMap i.opcode = some (.counted f) ∧ f i.count = i := by
  cases i with
  | fdec64 => exact .inl rfl
  | frec64 => exact .inl rfl
  | fdec32 => exact .inl rfl
  | frec32 => exact .inl rfl
  | mlenu => exact .inl rfl
  | mlens => exact .inl rfl
  | wrbe n => exact .inr ⟨_, rfl, rfl⟩
  | wrle n => exact .inr ⟨_, rfl, rfl⟩
  | wrbemu => exact .inl rfl
  | wrbems => exact .inl rfl
  | wrlemu => exact .inl rfl
  | wrlems => exact .inl rfl
  | rdbeu n => exact .inr ⟨_, rfl, rfl⟩
  | rdbes n => exact .inr ⟨_, rfl, rfl⟩
  | rdleu n => exact .inr ⟨_, rfl, rfl⟩
  | rdles n => exact .inr ⟨_, rfl, rfl⟩
  | leblen => exact .inl rfl
  | lebwr => exact .inl rfl
  | lebrd => exact .inl rfl
  | vlulen => exact .inl rfl
  | vluwr => exact .inl rfl
  | vlurd => exact .inl rfl

/-- A word that decodes has RSV 0, the command's operation code in OPC and its count in N (30_encoding.md R84). -/
theorem decode_inversion {w : CmdWord} {i : Instr} (h : decode w = .ok i) :
    rsvOf w = 0 ∧ i.opcode = opcOf w ∧ i.count = countOf w := by
  unfold decode at h
  have hs := opcodeMap_spec (opcOf w)
  split at h
  · cases h
  · next hr =>
    have hr' : rsvOf w = 0 := by simpa using hr
    cases hm : opcodeMap (opcOf w) with
    | none => rw [hm] at h; cases h
    | some e =>
      rw [hm] at h hs
      cases e with
      | counted f =>
        cases h
        exact ⟨hr', (hs _).1, (hs _).2⟩
      | plain j =>
        simp only at h
        split at h
        · cases h
        · next hc =>
          cases h
          exact ⟨hr', hs.1, by rw [hs.2]; simpa using Eq.symm (by simpa using hc : countOf w = 0)⟩

/-- The fields of a word under the mask of the six commands that take a byte count (30_encoding.md R86). -/
theorem mask_counted (w : CmdWord) :
    opcOf (w &&& 0xFFFFF0FF) = opcOf w ∧ countOf (w &&& 0xFFFFF0FF) = 0 ∧ rsvOf (w &&& 0xFFFFF0FF) = rsvOf w := by
  have h1 : (w &&& 0xFFFFF0FF).extractLsb' 8 4 = 0 := by
    apply BitVec.eq_of_getLsbD_eq
    intro i hi
    simp only [BitVec.getLsbD_extractLsb', BitVec.getLsbD_and]
    interval_cases i <;> simp
  refine ⟨?_, by rw [countOf, h1]; rfl, ?_⟩
  · apply BitVec.eq_of_getLsbD_eq
    intro i hi
    simp only [opcOf, BitVec.getLsbD_extractLsb', BitVec.getLsbD_and]
    interval_cases i <;> simp
  · apply BitVec.eq_of_getLsbD_eq
    intro i hi
    simp only [rsvOf, BitVec.getLsbD_extractLsb', BitVec.getLsbD_and]
    interval_cases i <;> simp

end Sys2Proof
end

