-- ==== Sys2Proof/Tests/Slice0.lean ====
section
/-!
SUPPORT. Tests of one step each, with expected values taken from spec/95_test_vectors.md and the examples of the rules,
and for every statement with hypotheses a state and operands that meet them.
-/

namespace Sys2Proof.Tests

open Sys2Proof Sys2Proof.Machine

/-! ### Helpers -/

/-- A state with a concrete capacity, an offset, the bytes of BUF from offset 0 on, and A. -/
def blk (cap off : Word) (bytes : List Byte) (a : Word) : State :=
  { State.reset with cap := cap, off := off, buf := Memory.writeFrom [] 0 bytes, a := a }

/-- The outcome is a next state of which p holds. -/
def nextIs (o : Host.Outcome State Fault Refusal) (p : State → Bool) : Bool :=
  match o with
  | .next t => p t
  | .fault _ => false
  | .refused _ => false

/-- The step at the word w, written to CMD, answers a next state with this R0 and this ST. -/
def gives (s : State) (w : Nat) (r0 : Word) (st : BitVec 32) : Bool :=
  nextIs (step (s.withFetchWord 32 w)) fun t => t.r0 == r0 && t.st == st

/-- The step at the word w answers a next state with this ST, OFF advanced to `off`, and BUF starting with these bytes. -/
def writes (s : State) (w : Nat) (st : BitVec 32) (off : Word) (bytes : List Byte) : Bool :=
  nextIs (step (s.withFetchWord 32 w)) fun t =>
    t.st == st && t.off == off && (t.buf.map fun cell => cell.2) == bytes

/-! ### WellFormed -/

theorem test_wellFormed_refuses_count_16 : Instr.wellFormed (.wrbe 16) = false := by decide
theorem test_wellFormed_accepts_count_15 : Instr.wellFormed (.wrbe 15) = true := by decide

/-! ### Decoding of words written out from 30_encoding.md R80, R86: RSV, then N, then OPC -/

theorem test_decode_fdec64 : decode 0b00000000000000000000_0000_00010000 = .ok .fdec64 := by decide
theorem test_decode_frec64 : decode 0b00000000000000000000_0000_00010001 = .ok .frec64 := by decide
theorem test_decode_fdec32 : decode 0b00000000000000000000_0000_00010010 = .ok .fdec32 := by decide
theorem test_decode_frec32 : decode 0b00000000000000000000_0000_00010011 = .ok .frec32 := by decide
theorem test_decode_mlenu : decode 0b00000000000000000000_0000_00100000 = .ok .mlenu := by decide
theorem test_decode_mlens : decode 0b00000000000000000000_0000_00100001 = .ok .mlens := by decide
theorem test_decode_wrbe : decode 0b00000000000000000000_1000_00100010 = .ok (.wrbe 8) := by decide
theorem test_decode_wrle : decode 0b00000000000000000000_0111_00100011 = .ok (.wrle 7) := by decide
theorem test_decode_wrbemu : decode 0b00000000000000000000_0000_00100100 = .ok .wrbemu := by decide
theorem test_decode_wrbems : decode 0b00000000000000000000_0000_00100101 = .ok .wrbems := by decide
theorem test_decode_wrlemu : decode 0b00000000000000000000_0000_00100110 = .ok .wrlemu := by decide
theorem test_decode_wrlems : decode 0b00000000000000000000_0000_00100111 = .ok .wrlems := by decide
theorem test_decode_rdbeu : decode 0b00000000000000000000_0000_00101000 = .ok (.rdbeu 0) := by decide
theorem test_decode_rdbes : decode 0b00000000000000000000_0001_00101001 = .ok (.rdbes 1) := by decide
theorem test_decode_rdleu : decode 0b00000000000000000000_1111_00101010 = .ok (.rdleu 15) := by decide
theorem test_decode_rdles : decode 0b00000000000000000000_0011_00101011 = .ok (.rdles 3) := by decide
theorem test_decode_leblen : decode 0b00000000000000000000_0000_00110000 = .ok .leblen := by decide
theorem test_decode_lebwr : decode 0b00000000000000000000_0000_00110001 = .ok .lebwr := by decide
theorem test_decode_lebrd : decode 0b00000000000000000000_0000_00110010 = .ok .lebrd := by decide
theorem test_decode_vlulen : decode 0b00000000000000000000_0000_00111000 = .ok .vlulen := by decide
theorem test_decode_vluwr : decode 0b00000000000000000000_0000_00111001 = .ok .vluwr := by decide
theorem test_decode_vlurd : decode 0b00000000000000000000_0000_00111010 = .ok .vlurd := by decide

/-- The words of 95_test_vectors.md section 2.5 that match no command. -/
theorem test_decode_refuses : ∀ w ∈ [0x00000000, 0x000000FF, 0x00000014, 0x00000033, 0x0000003B, 0x00000F2C, 0x00000110,
    0x00000130, 0x00001022, 0x80000010, 0x00001000], decodeTableWord 32 w = none := by decide
/-- 30_encoding.md R89: `RDLES 3` is the word 0x0000032B. -/
theorem test_encode_rdles : encode (.rdles 3) = 0x32B := by decide

/-! ### IEEE-754 (95_test_vectors.md section 2.1) -/

theorem test_fdec64_pi : nextIs (step ((blk 8 0 [] 0x400921FB54442D18).withFetchWord 32 0x10))
    (fun t => t.r0 == 0 && t.r1 == 0x400 && t.r2 == 0x921FB54442D18 && t.r3 == 2 && t.st == 0) = true := by decide
theorem test_fdec64_nan : nextIs (step ((blk 8 0 [] 0xFFF0000000000001).withFetchWord 32 0x10))
    (fun t => t.r0 == 1 && t.r1 == 0x7FF && t.r2 == 1 && t.r3 == 4) = true := by decide
theorem test_frec64 : gives (((blk 8 0 [] 1).withB 0x400).withC 0x4000000000000) 0x11 0xC004000000000000 0 = true := by
  decide
theorem test_frec64_overflow : gives ((blk 8 0 [] 1).withB 0x800) 0x11 0 4 = true := by decide
theorem test_fdec32_pi : nextIs (step ((blk 8 0 [] 0x40490FDB).withFetchWord 32 0x12))
    (fun t => t.r0 == 0 && t.r1 == 0x80 && t.r2 == 0x490FDB && t.r3 == 2) = true := by decide
theorem test_fdec32_ignores_high_half : nextIs (step ((blk 8 0 [] 0xFFFFFFFF7F800000).withFetchWord 32 0x12))
    (fun t => t.r0 == 0 && t.r1 == 0xFF && t.r2 == 0 && t.r3 == 3) = true := by decide
theorem test_frec32 : gives (((blk 8 0 [] 1).withB 0x80).withC 0x200000) 0x13 0xC0200000 0 = true := by decide
theorem test_frec32_overflow : gives ((blk 8 0 [] 1).withC 0x800000) 0x13 0 4 = true := by decide

/-! ### Minimal width (95_test_vectors.md sections 1 and 2.2; 41_minwidth.md R124 to R135) -/

theorem test_mlenu : gives (blk 8 0 [] 0x3243F6A8885A3) 0x20 7 0 = true := by decide
theorem test_mlenu_zero : gives (blk 8 0 [] 0) 0x20 1 0 = true := by decide
theorem test_mlens_positive : gives (blk 8 0 [] 0x80) 0x21 2 0 = true := by decide
theorem test_mlens_negative : gives (blk 8 0 [] 0xFFFFFFFFFFFFFF7F) 0x21 2 0 = true := by decide
theorem test_wrbe : writes (blk 8 0 [] 0x00FFFFFFFFFFFFFF) 0x822 0x80 8
    [0x00, 0xFF, 0xFF, 0xFF, 0xFF, 0xFF, 0xFF, 0xFF] = true := by decide
theorem test_wrbe_nine : writes (blk 8 0 [] 0x12) 0x922 2 0 [] = true := by decide
theorem test_wrle : writes (blk 8 0 [] 0x03243F6A8885A3) 0x723 0x70 7
    [0xA3, 0x85, 0x88, 0x6A, 0x3F, 0x24, 0x03] = true := by decide
theorem test_wrle_no_room : writes (blk 8 7 [] 0x12) 0x323 1 7 [] = true := by decide
theorem test_wrbemu : writes (blk 8 0 [] 0x0102) 0x24 0x20 2 [0x01, 0x02] = true := by decide
theorem test_wrbems : writes (blk 8 0 [] 0x80) 0x25 0x20 2 [0x00, 0x80] = true := by decide
theorem test_wrlemu : writes (blk 8 0 [] 0x03243F6A8885A3) 0x26 0x70 7
    [0xA3, 0x85, 0x88, 0x6A, 0x3F, 0x24, 0x03] = true := by decide
theorem test_wrlems : writes (blk 8 0 [] 0xFFFFFFFFFFFFFF7F) 0x27 0x20 2 [0x7F, 0xFF] = true := by decide
theorem test_rdbeu : gives (blk 8 0 [0x00, 0xFF, 0xFF, 0xFF, 0xFF, 0xFF, 0xFF, 0xFF] 0) 0x828 0x00FFFFFFFFFFFFFF 0x80 =
    true := by decide
theorem test_rdbeu_nothing_at_the_end : gives (blk 8 8 [] 0) 0x028 0 0 = true := by decide
theorem test_rdbes : gives (blk 8 0 [0xFF, 0x7F] 0) 0x229 0xFFFFFFFFFFFFFF7F 0x20 = true := by decide
theorem test_rdleu : gives (blk 8 0 [0xA3, 0x85, 0x88, 0x6A, 0x3F, 0x24, 0x03] 0) 0x72A 0x03243F6A8885A3 0x70 = true := by
  decide
theorem test_rdleu_nine : gives (blk 8 8 [] 0) 0x92A 0 2 = true := by decide
theorem test_rdles : gives (blk 8 0 [0x7F, 0xFF] 0) 0x22B 0xFFFFFFFFFFFFFF7F 0x20 = true := by decide

/-! ### LEB128 (95_test_vectors.md section 2.3) -/

theorem test_leblen : gives (blk 8 0 [] 300) 0x30 2 0 = true := by decide
theorem test_leblen_cap : gives (blk 8 0 [] 0x100000000000000) 0x30 0 2 = true := by decide
theorem test_lebwr : writes (blk 8 0 [] 0x40000000000000) 0x31 0x80 8
    [0x80, 0x80, 0x80, 0x80, 0x80, 0x80, 0x80, 0x20] = true := by decide
theorem test_lebwr_no_room : writes (blk 1 0 [] 0x80) 0x31 1 0 [] = true := by decide
theorem test_lebrd : nextIs (step ((blk 8 0 [0xAC, 0x02] 0).withFetchWord 32 0x32))
    (fun t => t.r0 == 300 && t.r1 == 2 && t.st == 0x20 && t.off == 2) = true := by decide
theorem test_lebrd_ninth_byte_not_read :
    gives (blk 9 0 [0x80, 0x80, 0x80, 0x80, 0x80, 0x80, 0x80, 0x80, 0x01] 0) 0x32 0 2 = true := by decide

/-! ### VLU (95_test_vectors.md section 2.4) -/

theorem test_vlulen : gives (blk 8 0 [] 0x40000000000000) 0x38 8 0 = true := by decide
theorem test_vluwr : writes (blk 8 0 [] 0x40000000000000) 0x39 0x80 8
    [0x7F, 0x00, 0x00, 0x00, 0x00, 0x00, 0x00, 0x40] = true := by decide
theorem test_vluwr_two_bytes : writes (blk 8 0 [] 300) 0x39 0x20 2 [0xB1, 0x04] = true := by decide
theorem test_vlurd : gives (blk 8 0 [0x03, 0x00, 0x02] 0) 0x3A 0x4000 0x30 = true := by decide
theorem test_vlurd_ff : gives (blk 8 0 [0xFF] 0) 0x3A 0 2 = true := by decide

/-! ### The host's port -/

/-- 30_encoding.md R89: any letter case, printed in upper case; any other operand is refused. -/
theorem test_assemble : assemble "wrBE 8".toList = some (.wrbe 8) ∧ assemble "WRBE 16".toList = none ∧
    assemble "FDEC64 1".toList = none ∧ assemble "WRBE".toList = none := by decide
/-- 95_test_vectors.md section 3, a program's lines: `A = 0x80`, `cmd WRBEMS` become a register write and a CMD write. -/
theorem test_program : (State.reset.withProgram [.setA 0x80, .command .wrbems]).queue =
    [.regWrite 0 64 0x80, .regWrite 0x18 32 0x25] := by decide

/-! ### Witnesses: states and operands that meet the hypotheses of the statements -/

theorem test_meets_DecodeEncodeAllCommands : Instr.wellFormed (.rdbes 15) = true ∧ Instr.wellFormed .vlurd = true := by
  decide
theorem test_meets_EncodeDecodeAllWords : decode 0xF22 = .ok (.wrbe 15) ∧ decode 0x3A = .ok .vlurd := by decide
theorem test_meets_DecodeAcceptsExactlyTableRows : MatchesRow 0xF2B ∧ ¬ MatchesRow 0x110 := by decide
theorem test_meets_ReservedBitsRaiseIllegalCommand :
    (0x00001022 : CmdWord).extractLsb' 12 20 ≠ 0 ∧ (0x80000010 : CmdWord).extractLsb' 12 20 ≠ 0 := by decide
theorem test_meets_WordsOutsideTableRaiseIllegalCommand :
    ¬ MatchesRow 0 ∧ ¬ MatchesRow 0x2C ∧ ¬ MatchesRow 0x110 ∧ ¬ MatchesRow 0xFFFFFFFF := by decide
theorem test_meets_StepRunsDecodedCommand :
    ((blk 8 0 [] 7).withFetchWord 32 0x822).queue = .regWrite 0x18 32 0x822 :: [] ∧
      decode ((0x822 : Word).setWidth 32) = .ok (.wrbe 8) := by decide
theorem test_meets_CommandWordRunsItsCommand : Instr.wellFormed (.wrle 15) = true := by decide
theorem test_meets_IdleBlockWaits : (blk 8 3 [] 7).queue = [] := by decide
theorem test_meets_StepKeepsInvariant : ((blk 8 6 [1, 2] 0x1234).withFetchWord 32 0x24).Inv ∧
    nextIs (step ((blk 8 6 [1, 2] 0x1234).withFetchWord 32 0x24)) (fun t => t.off == 8) = true := by decide
theorem test_meets_OffsetStaysWithinCapacity : (blk 8 8 [] 0).off.toNat ≤ (blk 8 8 [] 0).cap.toNat ∧
    nextIs (step ((blk 8 8 [] 0).withFetchWord 32 0x24)) (fun t => t.off == 8) = true := by decide
theorem test_meets_CapacityConstantAlongRuns : nextIs (Host.Core.run Sys2Proof.core 2
    ((blk 8 0 [] 0).withQueue [.regWrite 0 64 7, .regWrite 0x18 32 0x24])) (fun t => t.off == 1) = true := by decide
theorem test_meets_UnsupportedFormNeverProduced : (blk 8 8 [] 0).err ≠ 3 ∧
    nextIs (step ((blk 8 8 [] 0).withFetchWord 32 0x24)) (fun t => t.err == 1) = true := by decide
theorem test_meets_ErrorLeavesOnlyItsStatus :
    nextIs (issueCommand 0x24 (blk 8 8 [] 0)) (fun t => t.err != 0) = true ∧
    nextIs (issueCommand 0x14 (blk 8 0 [] 0)) (fun t => t.err != 0) = true := by decide
theorem test_meets_StatusCountsBytesMoved : nextIs (exec .wrbemu (blk 8 8 [] 0)) (fun t => t.err != 0) = true ∧
    Instr.movesNoBytes .mlenu = true ∧ Instr.movesNoBytes .vlurd = false := by decide
theorem test_meets_OutcomeDependsOnlyOnOperandsAndCursor :
    (blk 8 2 [1, 2] 7).withCmd 0x24 ≠ blk 8 2 [1, 2] 7 ∧ ((blk 8 2 [1, 2] 7).withCmd 0x24).off = (blk 8 2 [1, 2] 7).off ∧
    ((blk 8 2 [1, 2] 7).withCmd 0x24).cap = (blk 8 2 [1, 2] 7).cap ∧
    ∀ o, ((blk 8 2 [1, 2] 7).withCmd 0x24).byteAt o = (blk 8 2 [1, 2] 7).byteAt o :=
  ⟨by decide, rfl, rfl, fun _ => rfl⟩
theorem test_meets_Frec64GivesPatternOrOverflow :
    ((0x7FF : Word).toNat < 2 ^ 11 ∧ (0xFFFFFFFFFFFFF : Word).toNat < 2 ^ 52) ∧
    2 ^ 11 ≤ (0x800 : Word).toNat ∧ 2 ^ 52 ≤ (0x10000000000000 : Word).toNat := by decide
theorem test_meets_Frec32GivesPatternOrOverflow :
    ((0xFF : Word).toNat < 2 ^ 8 ∧ (0x7FFFFF : Word).toNat < 2 ^ 23) ∧
    2 ^ 8 ≤ (0x100 : Word).toNat ∧ 2 ^ 23 ≤ (0x800000 : Word).toNat := by decide
theorem test_meets_FloatFieldsRoundTrip :
    (((blk 8 0 [] 1).withB 0x7FF).withC 0xFFFFFFFFFFFFF).b.toNat < 2 ^ 11 ∧
    (((blk 8 0 [] 1).withB 0x7FF).withC 0xFFFFFFFFFFFFF).c.toNat < 2 ^ 52 ∧
    (((blk 8 0 [] 1).withB 0xFF).withC 0x7FFFFF).b.toNat < 2 ^ 8 ∧
    (((blk 8 0 [] 1).withB 0xFF).withC 0x7FFFFF).c.toNat < 2 ^ 23 := by decide

/-- For WRBE and WRLE: room for exactly 1 and exactly 8 bytes, and for one byte less. -/
theorem test_meets_WrbeStoresBigEndian :
    Fits (blk 8 7 [] 7) 1 ∧ Fits (blk 8 0 [] 7) 8 ∧ ¬ Fits (blk 8 8 [] 7) 1 ∧ ¬ Fits (blk 8 1 [] 7) 8 := by decide
theorem test_meets_WrleStoresLittleEndian :
    Fits (blk 8 7 [] 7) 1 ∧ Fits (blk 8 0 [] 7) 8 ∧ ¬ Fits (blk 8 8 [] 7) 1 ∧ ¬ Fits (blk 8 1 [] 7) 8 := by decide
theorem test_meets_WrbemuStoresMinimalUnsigned :
    IsMinimalUnsigned (blk 8 7 [] 0xFF).a.toNat 1 ∧ Fits (blk 8 7 [] 0xFF) 1 ∧
    IsMinimalUnsigned (blk 8 7 [] 0x100).a.toNat 2 ∧ ¬ Fits (blk 8 7 [] 0x100) 2 ∧
    IsMinimalUnsigned (blk 8 0 [] 0xFFFFFFFFFFFFFFFF).a.toNat 8 ∧ Fits (blk 8 0 [] 0xFFFFFFFFFFFFFFFF) 8 := by decide
theorem test_meets_WrlemuStoresMinimalUnsigned :
    IsMinimalUnsigned (blk 8 8 [] 0).a.toNat 1 ∧ ¬ Fits (blk 8 8 [] 0) 1 ∧
    IsMinimalUnsigned (blk 8 6 [] 0xFFFF).a.toNat 2 ∧ Fits (blk 8 6 [] 0xFFFF) 2 := by decide
theorem test_meets_WrbemsStoresMinimalSigned :
    IsMinimalSigned (blk 8 7 [] 0xFFFFFFFFFFFFFF80).a.toInt 1 ∧ Fits (blk 8 7 [] 0xFFFFFFFFFFFFFF80) 1 ∧
    IsMinimalSigned (blk 8 7 [] 0x80).a.toInt 2 ∧ ¬ Fits (blk 8 7 [] 0x80) 2 := by decide
theorem test_meets_WrlemsStoresMinimalSigned :
    IsMinimalSigned (blk 8 6 [] 0xFFFFFFFFFFFFFF7F).a.toInt 2 ∧ Fits (blk 8 6 [] 0xFFFFFFFFFFFFFF7F) 2 ∧
    IsMinimalSigned (blk 8 1 [] 0x8000000000000000).a.toInt 8 ∧ ¬ Fits (blk 8 1 [] 0x8000000000000000) 8 := by decide
/-- For the four reads: n = 0 at OFF = CAP, n = 8 with exactly eight bytes left and with seven. -/
theorem test_meets_RdbeuReadsBigEndian :
    Fits (blk 8 8 [] 7) 0 ∧ Fits (blk 8 0 [] 7) 8 ∧ ¬ Fits (blk 8 1 [] 7) 8 ∧ ¬ Fits (blk 8 8 [] 7) 1 := by decide
theorem test_meets_RdbesReadsBigEndianSigned :
    Fits (blk 8 8 [] 7) 0 ∧ Fits (blk 8 0 [] 7) 8 ∧ ¬ Fits (blk 8 1 [] 7) 8 ∧ ¬ Fits (blk 8 8 [] 7) 1 := by decide
theorem test_meets_RdleuReadsLittleEndian :
    Fits (blk 8 8 [] 7) 0 ∧ Fits (blk 8 0 [] 7) 8 ∧ ¬ Fits (blk 8 1 [] 7) 8 ∧ ¬ Fits (blk 8 8 [] 7) 1 := by decide
theorem test_meets_RdlesReadsLittleEndianSigned :
    Fits (blk 8 8 [] 7) 0 ∧ Fits (blk 8 0 [] 7) 8 ∧ ¬ Fits (blk 8 1 [] 7) 8 ∧ ¬ Fits (blk 8 8 [] 7) 1 := by decide
theorem test_meets_LengthCommandsAgreeWithWrites :
    Fits (blk 8 6 [] 0x100) (minimalLen 0x100) ∧ ¬ Fits (blk 8 7 [] 0x100) (minimalLen 0x100) ∧
    Fits (blk 8 6 [] 0x80) (minimalLenSigned 0x80) ∧ ¬ Fits (blk 8 7 [] 0x80) (minimalLenSigned 0x80) := by decide
theorem test_meets_MinimalWritesReadBack : Fits (blk 8 0 [] 0x8000000000000000) (minimalLenSigned 0x8000000000000000) ∧
    Fits (blk 8 0 [] 0xFFFFFFFFFFFFFFFF) (minimalLen 0xFFFFFFFFFFFFFFFF) := by decide
theorem test_meets_ByteOrdersMirrorEachOther : Fits (blk 8 7 [] 7) 1 ∧ Fits (blk 8 0 [] 7) 8 := by decide
theorem test_meets_MixedByteOrderAccessIsByteExact : Fits (blk 8 6 [] 0) 2 := by decide

theorem test_meets_LeblenGivesGroupCount :
    (blk 8 0 [] 0xFFFFFFFFFFFFFF).a.toNat < 2 ^ 56 ∧ 2 ^ 56 ≤ (blk 8 0 [] 0x100000000000000).a.toNat := by decide
theorem test_meets_LebwrStoresGroups :
    IsVarintLength (blk 8 0 [] 0xFFFFFFFFFFFFFF).a.toNat 8 ∧ Fits (blk 8 0 [] 0xFFFFFFFFFFFFFF) 8 ∧
    IsVarintLength (blk 1 0 [] 0x80).a.toNat 2 ∧ ¬ Fits (blk 1 0 [] 0x80) 2 ∧
    2 ^ 56 ≤ (blk 8 0 [] 0x100000000000000).a.toNat := by decide

/-- LEBRD: one byte, eight bytes, no byte, seven of eight bytes, eight continuation bytes. -/
theorem test_meets_LebrdReadsGroups :
    (Fits (blk 1 0 [0x7F] 0) 1 ∧ ((blk 1 0 [0x7F] 0).byteAt 0).toNat < 128) ∧
    (Fits (blk 8 0 [0x80, 0x80, 0x80, 0x80, 0x80, 0x80, 0x80, 0x20] 0) 8 ∧
      (∀ j, j < 7 → 128 ≤ ((blk 8 0 [0x80, 0x80, 0x80, 0x80, 0x80, 0x80, 0x80, 0x20] 0).byteAt (0 + j)).toNat) ∧
      ((blk 8 0 [0x80, 0x80, 0x80, 0x80, 0x80, 0x80, 0x80, 0x20] 0).byteAt 7).toNat < 128) ∧
    ¬ Fits (blk 1 1 [] 0) 1 ∧
    (¬ Fits (blk 7 0 [0x80, 0x80, 0x80, 0x80, 0x80, 0x80, 0x80] 0) 8 ∧
      ∀ j, j < 7 → 128 ≤ ((blk 7 0 [0x80, 0x80, 0x80, 0x80, 0x80, 0x80, 0x80] 0).byteAt (0 + j)).toNat) ∧
    (Fits (blk 8 0 [0x80, 0x80, 0x80, 0x80, 0x80, 0x80, 0x80, 0x80] 0) 8 ∧
      ∀ j, j < 8 → 128 ≤ ((blk 8 0 [0x80, 0x80, 0x80, 0x80, 0x80, 0x80, 0x80, 0x80] 0).byteAt (0 + j)).toNat) := by
  decide
theorem test_meets_Leb128RoundTripIsMinimal :
    IsVarintLength (blk 8 0 [] 0x40000000000000).a.toNat 8 ∧ Fits (blk 8 0 [] 0x40000000000000) 8 ∧
    nextIs (exec .lebrd (blk 8 0 [0xAC, 0x02] 0)) (fun y => y.err == 0 && y.r0 == (blk 8 0 [] 300).a) = true := by decide
theorem test_meets_VlulenGivesGroupCount :
    (blk 8 0 [] 0xFFFFFFFFFFFFFF).a.toNat < 2 ^ 56 ∧ 2 ^ 56 ≤ (blk 8 0 [] 0x100000000000000).a.toNat := by decide
theorem test_meets_VluwrStoresLengthPrefixedWord :
    IsVarintLength (blk 8 0 [] 0xFFFFFFFFFFFFFF).a.toNat 8 ∧ Fits (blk 8 0 [] 0xFFFFFFFFFFFFFF) 8 ∧
    IsVarintLength (blk 1 0 [] 0x80).a.toNat 2 ∧ ¬ Fits (blk 1 0 [] 0x80) 2 ∧
    2 ^ 56 ≤ (blk 8 0 [] 0x100000000000000).a.toNat := by decide
/-- VLURD: one byte, eight bytes, no byte, a first byte 0xFF, and too few further bytes. -/
theorem test_meets_VlurdReadsLengthPrefixedWord :
    (Fits (blk 1 0 [0xFE] 0) 1 ∧ ((blk 1 0 [0xFE] 0).byteAt 0).toNat % 2 ^ 1 = 2 ^ 0 - 1) ∧
    (Fits (blk 8 0 [0x7F] 0) 8 ∧ ((blk 8 0 [0x7F] 0).byteAt 0).toNat % 2 ^ 8 = 2 ^ 7 - 1) ∧
    ¬ Fits (blk 8 8 [] 0) 1 ∧
    (Fits (blk 1 0 [0xFF] 0) 1 ∧ ((blk 1 0 [0xFF] 0).byteAt 0).toNat = 255) ∧
    (Fits (blk 7 0 [0x7F] 0) 1 ∧ ¬ Fits (blk 7 0 [0x7F] 0) 8 ∧
      ((blk 7 0 [0x7F] 0).byteAt 0).toNat % 2 ^ 8 = 2 ^ 7 - 1) := by decide
theorem test_meets_VluRoundTripAgreesWithLeb128 :
    IsVarintLength (blk 8 0 [] 0x40000000000000).a.toNat 8 ∧ Fits (blk 8 0 [] 0x40000000000000) 8 := by decide

/-- Whole-register accesses at both ends of the map, and accesses of another width or offset. -/
theorem test_meets_OnlyWholeRegisterAccessesComplete :
    regAt 0x00 64 = some .a ∧ regAt 0x38 64 = some .r3 ∧ regAt 0x1C 32 = some .st ∧
    regAt 0x18 64 = none ∧ regAt 0x00 32 = none ∧ regAt 0x40 64 = none ∧ regAt 0x04 32 = none := by decide
theorem test_meets_CursorOperationsMoveOnlyOffset :
    (8 : Word).toNat ≤ (blk 8 8 [] 0).cap.toNat ∧ (blk 8 8 [] 0).cap.toNat < (9 : Word).toNat ∧
    (blk 8 8 [] 0).off.toNat ≤ (blk 8 8 [] 0).cap.toNat := by decide
theorem test_meets_DirectBufferAccessesTouchOneByte :
    (7 : Word).toNat < (blk 8 0 [] 0).cap.toNat ∧ (blk 8 0 [] 0).cap.toNat ≤ (8 : Word).toNat ∧
    ((blk 8 0 [9] 0).withByte 7 5).byteAt 7 = 5 := by decide
theorem test_meets_AssemblerReadsPrintedCommands :
    Instr.text (.wrbe 15) = "WRBE 15".toList ∧ Instr.wellFormed (.wrbe 15) = true := by decide

end Sys2Proof.Tests
end

section
/-!
The machine's state across commands and steps (10_state.md): what every command leaves unchanged, what ST.NB counts,
which operands a command reads, and the invariant every step keeps.
-/

namespace Sys2Proof.Machine

/-! ### What every step and every run keeps -/

/-- A property that does not look at the host's side of the port, and that each kind of step keeps, is kept by every
step. -/
theorem step_keeps {P : State → Prop} (hport : ∀ s q r, P s → P ((s.withQueue q).withReply r))
    (hkind : ∀ s t, StepKind s t → P s → P t) {s t : State} (h : step s = .next t) (hs : P s) : P t := by
  rcases step_cases h with rfl | ⟨q, r, hk⟩
  · exact hs
  · exact hkind _ t hk (hport s q r hs)

/-- A property that every step keeps is kept along a run of any number of steps. -/
theorem run_keeps {P : State → Prop} (hstep : ∀ s t, step s = .next t → P s → P t) (k : Nat) {s t : State}
    (h : Host.Core.run Sys2Proof.core k s = .next t) (hs : P s) : P t := by
  induction k generalizing s with
  | zero => cases h; exact hs
  | succ k ih =>
    obtain ⟨s', hs', hrun⟩ := run_succ h
    exact ih hrun (hstep s s' hs' hs)

/-! ### The parts of the invariant under the two commits -/

/-- The bytes a legal success commit stages lie below CAP, even where OFF stands above it. -/
theorem StagedLegal.bytes_below_cap {s : State} {g : Staged} (hg : StagedLegal s g) :
    g.bytes = [] ∨ s.off.toNat + g.bytes.length ≤ s.cap.toNat := by
  obtain ⟨-, hfit, -, hnone | hlen⟩ := hg
  · exact .inl hnone
  · by_cases hz : g.bytes.length = 0
    · exact .inl (List.length_eq_zero_iff.1 hz)
    · right; unfold Fits at hfit; omega

/-- A legal success commit leaves OFF within CAP (10_state.md R29). -/
theorem successCommit_off_le_cap {s : State} {g : Staged} (hg : StagedLegal s g) (hs : s.off.toNat ≤ s.cap.toNat) :
    (successCommit g s).off.toNat ≤ (successCommit g s).cap.toNat := by
  obtain ⟨-, hfit, -, -⟩ := hg
  rw [successCommit_off, successCommit_cap, off_add_toNat s g.advance hfit]
  unfold Fits at hfit
  omega

/-- The status a success commit of n bytes packs is legal (10_state.md R26). -/
theorem statusLegal_packStatus_count (n : Nat) (hn : n ≤ 8) : StatusLegal (packStatus 0 (BitVec.ofNat 4 n)) := by
  have hst := packStatus_toNat_count n (by omega)
  unfold StatusLegal
  omega

/-- The status an error commit packs is legal for every kind but UnsupportedForm (60_exceptions.md R201, R203). -/
theorem statusLegal_packStatus_code (e : ErrorKind) (he : e ≠ .unsupportedForm) : StatusLegal (packStatus e.code 0) := by
  cases e with
  | unsupportedForm => exact absurd rfl he
  | insufficientBuffer | invalidLength | overflow | illegalCommand => decide

/-- No command and no undecodable word raises UnsupportedForm (60_exceptions.md R203). -/
theorem ne_unsupportedForm_of_raised {e : ErrorKind} (he : RaisedByCommand e ∨ e = .illegalCommand) :
    e ≠ .unsupportedForm := by
  rcases he with (rfl | rfl | rfl) | rfl <;> decide

/-! ### The parts of the invariant under every kind of step -/

/-- No step changes CAP (10_state.md R28). -/
theorem StepKind.cap_eq {s t : State} (hk : StepKind s t) : t.cap = s.cap := by
  cases hk with
  | same h | regA _ h | regB _ h | regC _ h | offset _ _ h | byte _ _ _ h | reset h | success _ _ _ h | error _ _ _ h =>
    subst h; rfl

/-- Every kind of step keeps OFF within CAP (10_state.md R29). -/
theorem StepKind.off_le_cap {s t : State} (hk : StepKind s t) (hs : s.off.toNat ≤ s.cap.toNat) :
    t.off.toNat ≤ t.cap.toNat := by
  cases hk with
  | same h | regA _ h | regB _ h | regC _ h | byte _ _ _ h | error _ _ _ h => subst h; exact hs
  | offset v hv h => subst h; exact hv
  | reset h => subst h; exact Nat.zero_le _
  | success w g hg h => subst h; exact successCommit_off_le_cap hg hs

/-- Every kind of step keeps the buffer's canonical form (log 3). -/
theorem StepKind.buf_wf {s t : State} (hk : StepKind s t) (hs : Memory.wf s.buf = true) : Memory.wf t.buf = true := by
  cases hk with
  | same h | regA _ h | regB _ h | regC _ h | offset _ _ h | reset h | error _ _ _ h => subst h; exact hs
  | byte o b _ h => subst h; exact Memory.wf_insert s.buf o b hs
  | success w g _ h => subst h; exact Memory.wf_writeFrom s.buf s.off.toNat g.bytes hs

/-- Every kind of step keeps the buffer below CAP (20_memory.md R51). -/
theorem StepKind.buf_within {s t : State} (hk : StepKind s t) (hs : Memory.within s.buf s.cap.toNat = true) :
    Memory.within t.buf t.cap.toNat = true := by
  cases hk with
  | same h | regA _ h | regB _ h | regC _ h | offset _ _ h | reset h | error _ _ _ h => subst h; exact hs
  | byte o b ho h => subst h; exact Memory.within_insert s.buf o b s.cap.toNat hs ho
  | success w g hg h =>
    subst h
    exact Memory.within_writeFrom s.buf s.off.toNat g.bytes s.cap.toNat hs hg.bytes_below_cap

/-- Every kind of step keeps the status legal (10_state.md R25 to R27). -/
theorem StepKind.statusLegal {s t : State} (hk : StepKind s t) (hs : StatusLegal s.st) : StatusLegal t.st := by
  cases hk with
  | same h | regA _ h | regB _ h | regC _ h | offset _ _ h | byte _ _ _ h => subst h; exact hs
  | reset h => subst h; rw [vnbReset_st]; decide
  | success w g hg h =>
    obtain ⟨hadv, -, hnb, -⟩ := hg
    subst h
    rw [successCommit_st, hnb]
    exact statusLegal_packStatus_count g.advance hadv
  | error w e he h =>
    subst h
    exact statusLegal_packStatus_code e (ne_unsupportedForm_of_raised he)

/-- Every kind of step keeps the invariant. -/
theorem StepKind.inv {s t : State} (hk : StepKind s t) (hs : s.Inv) : t.Inv := by
  obtain ⟨hoff, hwf, hwithin, hst⟩ := hs
  exact ⟨hk.off_le_cap hoff, hk.buf_wf hwf, hk.buf_within hwithin, hk.statusLegal hst⟩

/-- Settles O11: each kind of step keeps each part of the invariant. -/
theorem stepKeepsInvariant : Obligations.StepKeepsInvariant := by
  unfold Obligations.StepKeepsInvariant
  intro s t hs h
  exact step_keeps (P := State.Inv) (fun _ _ _ hinv => hinv) (fun _ _ hk hinv => hk.inv hinv) h hs

/-- Settles O13: OFF moves only by a legal commit, by `seek` within CAP, or to 0. -/
theorem offsetStaysWithinCapacity : Obligations.OffsetStaysWithinCapacity := by
  unfold Obligations.OffsetStaysWithinCapacity
  intro s t hs h
  exact step_keeps (P := fun u => u.off.toNat ≤ u.cap.toNat) (fun _ _ _ hoff => hoff)
    (fun _ _ hk hoff => hk.off_le_cap hoff) h hs

/-- No step changes CAP (10_state.md R28). -/
theorem step_cap_eq {s t : State} (h : step s = .next t) : t.cap = s.cap :=
  step_keeps (P := fun u => u.cap = s.cap) (fun _ _ _ hcap => hcap) (fun _ _ hk hcap => hk.cap_eq.trans hcap) h rfl

/-- Settles O14, by induction on the number of steps (`run_keeps`). -/
theorem capacityConstantAlongRuns : Obligations.CapacityConstantAlongRuns := by
  unfold Obligations.CapacityConstantAlongRuns
  intro k s t h
  exact run_keeps (P := fun u => u.cap = s.cap) (fun _ _ hstep hcap => (step_cap_eq hstep).trans hcap) k h rfl

/-! ### What a command moves -/

/-- ST.NB after a legal success commit is the number of bytes OFF advanced by (10_state.md R26). -/
theorem successCommit_nb_toNat {s : State} {g : Staged} (hg : StagedLegal s g) :
    (successCommit g s).nb.toNat = g.advance := by
  obtain ⟨hadv, -, hnb, -⟩ := hg
  rw [successCommit_nb, hnb, BitVec.toNat_ofNat]
  omega

/-- A legal success commit changes no byte outside the bytes OFF moved over (20_memory.md R55, R56). -/
theorem successCommit_byteAt_outside {s : State} {g : Staged} (hg : StagedLegal s g) {o : Nat}
    (ho : o < s.off.toNat ∨ s.off.toNat + g.advance ≤ o) : (successCommit g s).byteAt o = s.byteAt o := by
  obtain ⟨-, -, -, hnone | hlen⟩ := hg
  · exact successCommit_byteAt_of_no_bytes g s o hnone
  · rw [successCommit_byteAt, dif_neg (by omega)]

theorem recompose_nb {fmt : FloatFormat} {a b c : Word} {g : Staged} (h : recompose fmt a b c = .ok g) : g.nb = 0 := by
  unfold recompose at h
  split at h
  · cases h
  · split at h
    · cases h
    · cases h; rfl

theorem lengthResult_nb {r : Except ErrorKind Nat} {g : Staged} (h : lengthResult r = .ok g) : g.nb = 0 := by
  cases r with
  | error e => cases h
  | ok len => cases h; rfl

/-- A command whose rule stages NB = 0, or raises an error, ends with ST.NB = 0. -/
theorem finish_nb {r : Except ErrorKind Staged} {s t : State} (hr : ∀ g, r = .ok g → g.nb = 0)
    (h : finish r s = .next t) : t.nb = 0 := by
  cases r with
  | ok g => cases h; exact (successCommit_nb g s).trans (hr g rfl)
  | error e => cases h; exact errorCommit_nb e s

/-- The IEEE-754 and the length commands leave ST.NB = 0 (20_memory.md R62). -/
theorem exec_nb_of_movesNoBytes {i : Instr} {s t : State} (hi : i.movesNoBytes = true) (h : exec i s = .next t) :
    t.nb = 0 := by
  cases i with
  | fdec64 | fdec32 | mlenu | mlens => cases h; exact successCommit_nb _ s
  | frec64 | frec32 => exact finish_nb (fun _ hg => recompose_nb hg) h
  | leblen | vlulen => exact finish_nb (fun _ hg => lengthResult_nb hg) h
  | wrbe _ | wrle _ | wrbemu | wrbems | wrlemu | wrlems | rdbeu _ | rdbes _ | rdleu _ | rdles _ | lebwr | lebrd
  | vluwr | vlurd => cases hi

/-- Settles O18: a success commit moves the cursor by what it reports, an error commit moves nothing. -/
theorem statusCountsBytesMoved : Obligations.StatusCountsBytesMoved := by
  unfold Obligations.StatusCountsBytesMoved
  intro i s
  rcases exec_cases i s with ⟨g, hg, ht⟩ | ⟨e, -, ht⟩
  · have hnb := successCommit_nb_toNat hg
    have ⟨hadv, hfit, _, _⟩ := hg
    refine ⟨_, ht, by omega, ?_, fun o ho => ?_, fun herr => ?_, fun hi => exec_nb_of_movesNoBytes hi ht⟩
    · rw [hnb, successCommit_off, off_add_toNat s g.advance hfit]
    · rw [hnb] at ho; exact successCommit_byteAt_outside hg ho
    · exact absurd (successCommit_err g s) herr
  · have hnb := errorCommit_nb e s
    refine ⟨_, ht, ?_, ?_, fun o _ => errorCommit_byteAt s e o, fun _ => hnb, fun _ => hnb⟩
    · rw [hnb]; decide
    · rw [hnb]; rfl

/-! ### Which operands a command reads -/

/-- Other values in the operand registers. -/
def State.withOperands (s : State) (a b c : Word) : State := ((s.withA a).withB b).withC c

section OtherOperands

variable (s : State) (a b c : Word)

@[simp] theorem State.withOperands_off : (s.withOperands a b c).off = s.off := rfl
@[simp] theorem State.withOperands_byteAt (o : Nat) : (s.withOperands a b c).byteAt o = s.byteAt o := rfl
@[simp] theorem State.withOperands_checkCapacity (n : Nat) :
    (s.withOperands a b c).checkCapacity n = s.checkCapacity n := rfl

theorem mwWrite_withOperands (n : Nat) (v : Word) (order : ByteOrder) :
    mwWrite n v order (s.withOperands a b c) = mwWrite n v order s := rfl

theorem mwRead_withOperands (n : Nat) (signed : Bool) (order : ByteOrder) :
    mwRead n signed order (s.withOperands a b c) = mwRead n signed order s := rfl

theorem lebWrite_withOperands (x : Word) : lebWrite x (s.withOperands a b c) = lebWrite x s := rfl

theorem lebReadFrom_withOperands (fuel i : Nat) (x : Word) :
    lebReadFrom (s.withOperands a b c) fuel i x = lebReadFrom s fuel i x := by
  induction fuel generalizing i x with
  | zero => rfl
  | succ fuel ih =>
    simp only [lebReadFrom, State.withOperands_checkCapacity, State.withOperands_off, State.withOperands_byteAt, ih]

theorem vluWrite_withOperands (x : Word) : vluWrite x (s.withOperands a b c) = vluWrite x s := rfl

theorem vluRead_withOperands : vluRead (s.withOperands a b c) = vluRead s := rfl

/-- Both commits keep the operand registers: a rule that answers the same with other operand values leaves the same,
but for those values. -/
theorem finish_withOperands {r r' : Except ErrorKind Staged} (h : r' = r) :
    ∃ t, finish r s = .next t ∧ finish r' (s.withOperands a b c) = .next (t.withOperands a b c) := by
  subst h
  cases r' with
  | ok g => exact ⟨_, rfl, rfl⟩
  | error e => exact ⟨_, rfl, rfl⟩

end OtherOperands

/-- A command run with other values in the registers it does not name leaves the same, with those values
(10_state.md R21). -/
theorem exec_withOperands {i : Instr} {s : State} {a b c : Word} (ha : i.namesA = true → a = s.a)
    (hbc : i.namesBC = true → b = s.b ∧ c = s.c) :
    ∃ t, exec i s = .next t ∧ exec i (s.withOperands a b c) = .next (t.withOperands a b c) := by
  cases i with
  | frec64 | frec32 =>
    obtain rfl := ha rfl
    obtain ⟨rfl, rfl⟩ := hbc rfl
    exact finish_withOperands s s.a s.b s.c rfl
  | fdec64 | fdec32 | mlenu | mlens =>
    obtain rfl := ha rfl
    exact finish_withOperands (r := .ok _) s s.a b c rfl
  | leblen | vlulen =>
    obtain rfl := ha rfl
    exact finish_withOperands s s.a b c rfl
  | wrbe _ | wrle _ | wrbemu | wrbems | wrlemu | wrlems =>
    obtain rfl := ha rfl
    exact finish_withOperands s s.a b c (mwWrite_withOperands s s.a b c _ _ _)
  | lebwr =>
    obtain rfl := ha rfl
    exact finish_withOperands s s.a b c (lebWrite_withOperands s s.a b c s.a)
  | vluwr =>
    obtain rfl := ha rfl
    exact finish_withOperands s s.a b c (vluWrite_withOperands s s.a b c s.a)
  | rdbeu _ | rdbes _ | rdleu _ | rdles _ =>
    exact finish_withOperands s a b c (mwRead_withOperands s a b c _ _ _)
  | lebrd => exact finish_withOperands s a b c (lebReadFrom_withOperands s a b c 8 0 0)
  | vlurd => exact finish_withOperands s a b c (vluRead_withOperands s a b c)

/-- Settles O20: the named registers keep their values, so `exec_withOperands` applies. -/
theorem unnamedOperandsAreIgnored : Obligations.UnnamedOperandsAreIgnored := by
  unfold Obligations.UnnamedOperandsAreIgnored
  intro i s va vb vc
  exact exec_withOperands (fun hA => if_pos hA) (fun hBC => ⟨if_pos hBC, if_pos hBC⟩)

/-! ### What a command leaves, and the host's register accesses -/

theorem successCommit_sameHostSide (g : Staged) (s : State) : SameHostSide s (successCommit g s) :=
  ⟨rfl, rfl, rfl, rfl, rfl, rfl, rfl⟩

theorem errorCommit_sameHostSide (e : ErrorKind) (s : State) : SameHostSide s (errorCommit e s) :=
  (errorCommit_endsInError e s).1

/-- Every command answers a next state with A, B, C, CMD and CAP as they were (10_state.md R20, R28). -/
theorem exec_sameHostSide (i : Instr) (s : State) : ∃ t, exec i s = .next t ∧ SameHostSide s t := by
  rcases exec_cases i s with ⟨g, -, ht⟩ | ⟨e, -, ht⟩
  · exact ⟨_, ht, successCommit_sameHostSide g s⟩
  · exact ⟨_, ht, errorCommit_sameHostSide e s⟩

/-- Settles O19. -/
theorem commandsKeepOperandsAndCapacity : Obligations.CommandsKeepOperandsAndCapacity := exec_sameHostSide

/-- An issued word answers a next state, and CMD holds the word even if the command fails (30_encoding.md R84). -/
theorem issueCommand_cmd (w : CmdWord) (s : State) : ∃ t, issueCommand w s = .next t ∧ t.cmd = w := by
  rcases issueCommand_cases w s with ⟨i, -, hrun⟩ | ⟨d, -, herr⟩
  · obtain ⟨t, ht, -, -, -, hcmd, -⟩ := exec_sameHostSide i (s.withCmd w)
    exact ⟨t, hrun.trans ht, hcmd⟩
  · exact ⟨_, herr, rfl⟩

/-- The step at an action placed before the pending ones performs it, with those left pending (20_memory.md R69). -/
theorem step_withQueue_cons (act : HostAction) (s : State) :
    step (s.withQueue (act :: s.queue)) = runAction act s := rfl

/-- The step at a pending whole-register write acknowledges it and writes the register (20_memory.md R53). -/
theorem step_regWrite {offset : Word} {bits : Nat} {r : Reg} (hr : regAt offset bits = some r) (v : Word) (s : State) :
    step (s.withQueue (.regWrite offset bits v :: s.queue)) = writeRegister r v (s.withReply .done) := by
  rw [step_withQueue_cons]
  simp only [runAction, hostWrite, hr]

/-- The step at a pending whole-register read answers the register's value and changes nothing else
(20_memory.md R53, R64). -/
theorem step_regRead {offset : Word} {bits : Nat} {r : Reg} (hr : regAt offset bits = some r) (s : State) :
    step (s.withQueue (.regRead offset bits :: s.queue)) = .next (s.withReply (readRegister r s)) := by
  rw [step_withQueue_cons]
  simp only [runAction, hostRead, hr]

/-- Settles O9. -/
theorem commandRegisterHoldsLastWord : Obligations.CommandRegisterHoldsLastWord := by
  unfold Obligations.CommandRegisterHoldsLastWord
  intro s w
  obtain ⟨t, ht, hcmd⟩ := issueCommand_cmd w (s.withReply .done)
  refine ⟨t, (step_withFetchWord s w).trans ht, hcmd, ?_⟩
  rw [step_regRead (r := .cmd) (by decide), ← hcmd]
  rfl

/-- Settles O51: each offset and width is that register's row of the map (20_memory.md R52). -/
theorem hostWritesReachOnlyOperands : Obligations.HostWritesReachOnlyOperands := by
  unfold Obligations.HostWritesReachOnlyOperands
  intro s v
  exact ⟨step_regWrite (r := .a) (by decide) v s, step_regWrite (r := .b) (by decide) v s,
    step_regWrite (r := .c) (by decide) v s, step_regWrite (r := .st) (by decide) v s,
    step_regWrite (r := .r0) (by decide) v s, step_regWrite (r := .r1) (by decide) v s,
    step_regWrite (r := .r2) (by decide) v s, step_regWrite (r := .r3) (by decide) v s⟩

end Sys2Proof.Machine
end

section
/-!
Memory and the host's port (20_memory.md): the register space and its refusals, the block on the host's address map,
the cursor operations, direct accesses to BUF, and accesses of mixed byte order.
-/

namespace Sys2Proof.Machine

/-! ### The register space -/

/-- A write of any register answers a next state; a write to CMD does because an issued word does. -/
theorem writeRegister_next (r : Reg) (v : Word) (s : State) : ∃ t, writeRegister r v s = .next t := by
  cases r with
  | cmd =>
    obtain ⟨t, ht, -⟩ := issueCommand_cmd (v.setWidth 32) s
    exact ⟨t, ht⟩
  | a | b | c | st | r0 | r1 | r2 | r3 => exact ⟨_, rfl⟩

/-- The step at a pending write that is no whole-register access refuses it (20_memory.md R53). -/
theorem step_regWrite_refused {offset : Word} {bits : Nat} (hr : regAt offset bits = none) (v : Word) (s : State) :
    step (s.withQueue (.regWrite offset bits v :: s.queue)) = .refused (.registerAccess offset bits) := by
  rw [step_withQueue_cons]
  simp only [runAction, hostWrite, hr]

/-- The step at a pending read that is no whole-register access refuses it (20_memory.md R53). -/
theorem step_regRead_refused {offset : Word} {bits : Nat} (hr : regAt offset bits = none) (s : State) :
    step (s.withQueue (.regRead offset bits :: s.queue)) = .refused (.registerAccess offset bits) := by
  rw [step_withQueue_cons]
  simp only [runAction, hostRead, hr]

/-- Settles O53: the register map has a row for exactly the whole-register accesses (`regAt_isSome`). -/
theorem onlyWholeRegisterAccessesComplete : Obligations.OnlyWholeRegisterAccessesComplete := by
  unfold Obligations.OnlyWholeRegisterAccessesComplete
  intro s offset bits v
  rw [← regAt_isSome]
  cases hr : regAt offset bits with
  | some r =>
    obtain ⟨t, ht⟩ := writeRegister_next r v (s.withReply .done)
    exact ⟨fun _ => ⟨⟨_, step_regRead hr s⟩, t, (step_regWrite hr v s).trans ht⟩, fun hnot => absurd rfl hnot⟩
  | none =>
    exact ⟨fun hsome => absurd hsome Bool.false_ne_true,
      fun _ => ⟨step_regRead_refused hr s, step_regWrite_refused hr v s⟩⟩

/-- Settles O52: each offset and width is that register's row of the map (20_memory.md R52). -/
theorem hostReadsAnswerAndChangeNothing : Obligations.HostReadsAnswerAndChangeNothing := by
  unfold Obligations.HostReadsAnswerAndChangeNothing
  intro s
  exact ⟨step_regRead (r := .a) (by decide) s, step_regRead (r := .b) (by decide) s,
    step_regRead (r := .c) (by decide) s, step_regRead (r := .cmd) (by decide) s,
    step_regRead (r := .st) (by decide) s, step_regRead (r := .r0) (by decide) s,
    step_regRead (r := .r1) (by decide) s, step_regRead (r := .r2) (by decide) s,
    step_regRead (r := .r3) (by decide) s⟩

/-- The block offset of `VNB_BASE + offset` is that offset, also where the sum wraps (log 4). -/
theorem blockOffset_vnbBase_add (offset : Word) : blockOffset (Config.vnbBase + offset) = offset :=
  add_sub_cancel_left Config.vnbBase offset

/-- Settles O54: both accesses act at the same block offset (`blockOffset_vnbBase_add`). -/
theorem busAccessesReachBlockOffsets : Obligations.BusAccessesReachBlockOffsets := by
  unfold Obligations.BusAccessesReachBlockOffsets
  intro s q offset bits v
  exact ⟨congrArg (fun o => hostWrite o bits v (s.withQueue q)) (blockOffset_vnbBase_add offset),
    congrArg (fun o => hostRead o bits (s.withQueue q)) (blockOffset_vnbBase_add offset)⟩

/-! ### The cursor operations -/

/-- `seek(o)` up to CAP succeeds (20_memory.md R67). -/
theorem cursorSeek_of_le {o : Word} {s : State} (h : o.toNat ≤ s.cap.toNat) :
    cursorSeek o s = (s.withOff o).withReply .done := if_pos h

/-- `seek(o)` beyond CAP fails and moves nothing (20_memory.md R67). -/
theorem cursorSeek_of_gt {o : Word} {s : State} (h : s.cap.toNat < o.toNat) :
    cursorSeek o s = s.withReply .failed := if_neg (Nat.not_le.2 h)

/-- Where OFF <= CAP, the number of bytes remaining is the difference of the registers (10_state.md R31). -/
theorem ofNat_remainingBytes {s : State} (h : s.off.toNat ≤ s.cap.toNat) :
    BitVec.ofNat 64 s.remainingBytes = s.cap - s.off := by
  unfold State.remainingBytes
  bv_omega

/-- Settles O55, one operation at a time. -/
theorem cursorOperationsMoveOnlyOffset : Obligations.CursorOperationsMoveOnlyOffset := by
  unfold Obligations.CursorOperationsMoveOnlyOffset
  intro s
  refine ⟨step_withQueue_cons .cursorReset s, fun o ho => ?_, fun o ho => ?_, step_withQueue_cons .offset s,
    fun hoff => ?_⟩
  · rw [step_withQueue_cons, runAction, cursorSeek_of_le ho]
    rfl
  · rw [step_withQueue_cons, runAction, cursorSeek_of_gt ho]
  · rw [step_withQueue_cons, runAction, ofNat_remainingBytes hoff]

/-! ### Direct accesses to BUF -/

section DirectAccess

variable {o : Word} {s : State}

/-- A direct write below CAP sets the byte (20_memory.md R68). -/
theorem pokeByte_of_lt (b : Byte) (h : o.toNat < s.cap.toNat) :
    pokeByte o b s = .next ((s.withByte o.toNat b).withReply .done) := if_pos h

/-- A direct write at or above CAP faults (20_memory.md R51, log 7). -/
theorem pokeByte_of_ge (b : Byte) (h : s.cap.toNat ≤ o.toNat) : pokeByte o b s = .fault (.bufferOffset o) :=
  if_neg (Nat.not_lt.2 h)

/-- A direct read below CAP answers the byte (20_memory.md R68). -/
theorem peekByte_of_lt (h : o.toNat < s.cap.toNat) :
    peekByte o s = .next (s.withReply (.byte (s.byteAt o.toNat))) := if_pos h

/-- A direct read at or above CAP faults (20_memory.md R51, log 7). -/
theorem peekByte_of_ge (h : s.cap.toNat ≤ o.toNat) : peekByte o s = .fault (.bufferOffset o) :=
  if_neg (Nat.not_lt.2 h)

end DirectAccess

/-- Settles O56: below CAP the write changes one byte (`State.withByte_byteAt`), and from CAP on both accesses fault. -/
theorem directBufferAccessesTouchOneByte : Obligations.DirectBufferAccessesTouchOneByte := by
  unfold Obligations.DirectBufferAccessesTouchOneByte
  intro s o b
  simp only [step_withQueue_cons, runAction]
  refine ⟨fun ho => ⟨⟨_, pokeByte_of_lt b ho, ⟨rfl, rfl, rfl, rfl, rfl, rfl, rfl⟩, rfl, rfl, ⟨rfl, rfl, rfl, rfl⟩,
    ?_, fun o' hne => ?_⟩, peekByte_of_lt ho⟩, fun ho => ⟨pokeByte_of_ge b ho, peekByte_of_ge ho⟩⟩
  · rw [State.withReply_byteAt, State.withByte_byteAt, if_pos rfl]
  · rw [State.withReply_byteAt, State.withByte_byteAt, if_neg hne.symm]

/-! ### Mixed byte order -/

/-- ST.ERR as the status gives it (10_state.md R25). -/
theorem Status.err_toNat {t : State} {e n : Nat} (h : Status t e n) (he : e < 16) : t.err.toNat = e := by
  unfold Status at h
  simp only [State.err, BitVec.extractLsb'_toNat, Nat.shiftRight_zero, h]
  omega

/-- A minimal-width write that fits stores the n low-order bytes of v in its order (20_memory.md R58). -/
theorem finish_mwWrite_stored {n : Nat} (v : Word) (order : ByteOrder) {s : State} (h1 : 1 ≤ n) (h8 : n ≤ 8)
    (hfit : Fits s n) :
    ∃ t, finish (mwWrite n v order s) s = .next t ∧
      Stored s t n fun i => v.toNat / 256 ^ byteIndex order n i % 256 := by
  refine ⟨_, by rw [mwWrite_ok n v order s h1 h8 hfit, finish_ok],
    successCommit_stored s n _ _ (fieldBytes_length order n v) h8 hfit fun i hi => ?_⟩
  rw [fieldBytes_getElem, byteOf_toNat, Nat.pow_mul]

/-- An unsigned minimal-width read that fits consumes n bytes with their value in its order (20_memory.md R58). -/
theorem finish_mwRead_consumed {n : Nat} (order : ByteOrder) {s : State} (h8 : n ≤ 8) (hfit : Fits s n) :
    ∃ t, finish (mwRead n false order s) s = .next t ∧ Consumed s t n (s.gather order n).toNat :=
  ⟨_, by rw [mwRead_ok n false order s h8 hfit, finish_ok]; rfl, successCommit_consumed s n _ h8 hfit⟩

/-- Settles O42: the read sees the two bytes WRLE stored, the low one first, and takes the first as the high one. -/
theorem mixedByteOrderAccessIsByteExact : Obligations.MixedByteOrderAccessIsByteExact := by
  unfold Obligations.MixedByteOrderAccessIsByteExact
  intro s hfit
  obtain ⟨t, hwrite, ⟨-, -, -, -, hcap, -⟩, -, -, -, hbytes, -⟩ :=
    finish_mwWrite_stored (s := s.withA 0x1234) 0x1234 .le (by decide : 1 ≤ 2) (by decide) hfit
  have hback : Fits (t.withOff s.off) 2 := by
    unfold Fits
    rw [State.withOff_cap, State.withOff_off, hcap]
    exact hfit
  obtain ⟨u, hread, -, -, -, ⟨hr0, -⟩, hst⟩ := finish_mwRead_consumed .be (by decide) hback
  refine ⟨t, u, hwrite, hread, BitVec.eq_of_toNat_eq (hst.err_toNat (by decide)), BitVec.eq_of_toNat_eq ?_⟩
  have hlow : (t.byteAt s.off.toNat).toNat = 0x34 := hbytes 0 (by decide)
  have hhigh : (t.byteAt (s.off.toNat + 1)).toNat = 0x12 := hbytes 1 (by decide)
  rw [hr0, gather_be_toNat _ 2 (by decide)]
  simp [State.beValue, hlow, hhigh]

end Sys2Proof.Machine
end

section
/-!
The command word (30_encoding.md): decoding and encoding are inverse, the words of the table are the words that decode,
every other word ends in IllegalCommand, and the assembler reads a command's printed text.
-/

namespace Sys2Proof

/-! ### Decoding and encoding -/

/-- A word whose operation code stands for a counted command decodes to it at the word's N (30_encoding.md R82). -/
theorem decode_of_counted {w : CmdWord} {f : Nat → Instr} (hrsv : rsvOf w = 0)
    (hmap : opcodeMap (opcOf w) = some (.counted f)) : decode w = .ok (f (countOf w)) := by
  simp [decode, hrsv, hmap]

/-- A word whose operation code stands for a plain command decodes to it where N is 0 (30_encoding.md R82). -/
theorem decode_of_plain {w : CmdWord} {i : Instr} (hrsv : rsvOf w = 0)
    (hmap : opcodeMap (opcOf w) = some (.plain i)) (hcount : countOf w = 0) : decode w = .ok i := by
  simp [decode, hrsv, hmap, hcount]

/-- A plain command has no byte count. -/
theorem count_of_plain {i : Instr} (hmap : opcodeMap i.opcode = some (.plain i)) : i.count = 0 := by
  have hspec := opcodeMap_spec i.opcode
  rw [hmap] at hspec
  exact hspec.2

/-- A word decodes to a command exactly if its three fields are that command's (30_encoding.md R84). -/
theorem decode_eq_ok_iff {w : CmdWord} {i : Instr} :
    decode w = .ok i ↔ rsvOf w = 0 ∧ i.opcode = opcOf w ∧ i.count = countOf w := by
  refine ⟨decode_inversion, fun ⟨hrsv, hopc, hcount⟩ => ?_⟩
  rcases opcodeMap_opcode i with hmap | ⟨f, hmap, hf⟩
  · have hzero := count_of_plain hmap
    exact decode_of_plain hrsv (hopc ▸ hmap) (hcount ▸ hzero)
  · rw [decode_of_counted hrsv (hopc ▸ hmap), ← hcount, hf]

/-- Settles O1: the word of a well-formed command has that command's fields. -/
theorem decodeEncodeAllCommands : Obligations.DecodeEncodeAllCommands := by
  unfold Obligations.DecodeEncodeAllCommands
  intro i hi
  obtain ⟨hopc, hcount, hrsv⟩ := Laws.encoded_fields i hi
  exact decode_eq_ok_iff.2 ⟨hrsv, hopc.symm, hcount.symm⟩

/-- A command that some word decodes to is well-formed: N has four bits (30_encoding.md R82). -/
theorem wellFormed_of_decode {w : CmdWord} {i : Instr} (h : decode w = .ok i) : i.wellFormed = true := by
  obtain ⟨-, -, hcount⟩ := decode_inversion h
  have hlt := countOf_lt w
  exact decide_eq_true (by omega)

/-- Settles O2: the word and the encoded command agree in all three fields, and these are the whole word. -/
theorem encodeDecodeAllWords : Obligations.EncodeDecodeAllWords := by
  unfold Obligations.EncodeDecodeAllWords
  intro w i h
  have hwf := wellFormed_of_decode h
  obtain ⟨hrsv, hopc, hcount⟩ := decode_inversion h
  obtain ⟨hopc', hcount', hrsv'⟩ := Laws.encoded_fields i hwf
  exact ⟨hwf, word_ext (hopc'.trans hopc) (hcount'.trans hcount) (hrsv'.trans hrsv.symm)⟩

/-- Settles O4: the decoder is evaluated at the eleven words. -/
theorem decodeWordsWrittenFromSpec : Obligations.DecodeWordsWrittenFromSpec := by
  unfold Obligations.DecodeWordsWrittenFromSpec
  decide

/-! ### The rows of the table -/

/-- The mask of an entry's row: the six commands that take a byte count leave N free (30_encoding.md R86). -/
def OpcodeEntry.mask : OpcodeEntry → CmdWord
  | .plain _ => 0xFFFFFFFF
  | .counted _ => 0xFFFFF0FF

/-- The operation code of an assigned entry is a command's. -/
theorem exists_opcode_eq_of_opcodeMap {opc : BitVec 8} {e : OpcodeEntry} (h : opcodeMap opc = some e) :
    ∃ i : Instr, i.opcode = opc := by
  have hspec := opcodeMap_spec opc
  rw [h] at hspec
  cases e with
  | plain i => exact ⟨i, hspec.1⟩
  | counted f => exact ⟨f 0, (hspec 0).1⟩

/-- Every assigned operation code has its row in the table (30_encoding.md R86). -/
theorem mem_commandRows_of_opcodeMap {opc : BitVec 8} {e : OpcodeEntry} (h : opcodeMap opc = some e) :
    (opc.setWidth 32, e.mask) ∈ Machine.commandRows := by
  obtain ⟨i, rfl⟩ := exists_opcode_eq_of_opcodeMap h
  cases i with
  | fdec64 | frec64 | fdec32 | frec32 | mlenu | mlens | wrbe _ | wrle _ | wrbemu | wrbems | wrlemu | wrlems
  | rdbeu _ | rdbes _ | rdleu _ | rdles _ | leblen | lebwr | lebrd | vlulen | vluwr | vlurd =>
    cases h
    simp [Machine.commandRows, Instr.opcode, OpcodeEntry.mask]

/-- Every row of the table is the row of the operation code its match word holds (30_encoding.md R86). -/
theorem opcodeMap_of_mem_commandRows : ∀ row ∈ Machine.commandRows,
    (opcodeMap (opcOf row.1)).map (fun e => ((opcOf row.1).setWidth 32, e.mask)) = some row :=
  List.map_inj_left.1 (rfl : _ = Machine.commandRows.map some)

/-- A word matches a row exactly if it matches the row of an assigned operation code (30_encoding.md R86). -/
theorem matchesRow_iff {w : CmdWord} :
    Machine.MatchesRow w ↔ ∃ opc e, opcodeMap opc = some e ∧ w &&& e.mask = opc.setWidth 32 := by
  constructor
  · rintro ⟨⟨code, mask⟩, hrow, hw⟩
    obtain ⟨e, hmap, heq⟩ := Option.map_eq_some_iff.1 (opcodeMap_of_mem_commandRows _ hrow)
    obtain ⟨hcode, hmask⟩ := Prod.mk.inj heq
    exact ⟨_, e, hmap, (hmask ▸ hw).trans hcode.symm⟩
  · rintro ⟨opc, e, hmap, hw⟩
    exact ⟨_, mem_commandRows_of_opcodeMap hmap, hw⟩

/-- A word is an operation code alone exactly if its other fields are 0 (30_encoding.md R80). -/
theorem eq_setWidth_iff {w : CmdWord} {opc : BitVec 8} :
    w = opc.setWidth 32 ↔ opcOf w = opc ∧ countOf w = 0 ∧ rsvOf w = 0 := by
  have hfields := Laws.encoded_fields_of_count opc 0 (by decide)
  simp only [BitVec.ofNat_eq_ofNat, BitVec.zero_shiftLeft, BitVec.or_zero] at hfields
  obtain ⟨hopc, hcount, hrsv⟩ := hfields
  constructor
  · rintro rfl
    exact ⟨hopc, hcount, hrsv⟩
  · rintro ⟨hopc', hcount', hrsv'⟩
    exact word_ext (hopc'.trans hopc.symm) (hcount'.trans hcount.symm) (hrsv'.trans hrsv.symm)

/-- A word matches a plain row exactly if OPC is the row's and N and RSV are 0 (30_encoding.md R86). -/
theorem and_mask_plain_iff {w : CmdWord} {i : Instr} {opc : BitVec 8} :
    w &&& (OpcodeEntry.plain i).mask = opc.setWidth 32 ↔ opcOf w = opc ∧ countOf w = 0 ∧ rsvOf w = 0 := by
  have hmask : w &&& (OpcodeEntry.plain i).mask = w := BitVec.and_allOnes
  rw [hmask, eq_setWidth_iff]

/-- A word matches a counted row exactly if OPC is the row's and RSV is 0, whatever N is (30_encoding.md R86). -/
theorem and_mask_counted_iff {w : CmdWord} {f : Nat → Instr} {opc : BitVec 8} :
    w &&& (OpcodeEntry.counted f).mask = opc.setWidth 32 ↔ opcOf w = opc ∧ rsvOf w = 0 := by
  obtain ⟨hopc, hcount, hrsv⟩ := mask_counted w
  rw [OpcodeEntry.mask, eq_setWidth_iff, hopc, hcount, hrsv]
  simp only [true_and]

/-- Settles O3: decoding to a command makes the word match the row of its operation code, and a word that matches the
row of an operation code decodes to the command that stands there. -/
theorem decodeAcceptsExactlyTableRows : Obligations.DecodeAcceptsExactlyTableRows := by
  unfold Obligations.DecodeAcceptsExactlyTableRows
  intro w
  rw [matchesRow_iff]
  constructor
  · rintro ⟨i, h⟩
    obtain ⟨hrsv, hopc, hcount⟩ := decode_inversion h
    rcases opcodeMap_opcode i with hmap | ⟨f, hmap, -⟩
    · have hzero := count_of_plain hmap
      exact ⟨_, _, hmap, and_mask_plain_iff.2 ⟨hopc.symm, hcount ▸ hzero, hrsv⟩⟩
    · exact ⟨_, _, hmap, and_mask_counted_iff.2 ⟨hopc.symm, hrsv⟩⟩
  · rintro ⟨opc, e, hmap, hw⟩
    cases e with
    | plain i =>
      obtain ⟨rfl, hcount, hrsv⟩ := and_mask_plain_iff.1 hw
      exact ⟨i, decode_of_plain hrsv hmap hcount⟩
    | counted f =>
      obtain ⟨rfl, hrsv⟩ := and_mask_counted_iff.1 hw
      exact ⟨f (countOf w), decode_of_counted hrsv hmap⟩

end Sys2Proof

namespace Sys2Proof.Machine

/-! ### Issuing a word -/

/-- A word that decodes to no command ends in the error commit of IllegalCommand (30_encoding.md R87,
60_exceptions.md R204). -/
theorem issueCommand_of_not_decodes {w : CmdWord} (hw : ¬ ∃ i, decode w = .ok i) (s : State) :
    ∃ t, issueCommand w s = .next t ∧ EndsInError (s.withCmd w) t 5 := by
  rcases issueCommand_cases w s with ⟨i, hi, -⟩ | ⟨d, -, herr⟩
  · exact absurd ⟨i, hi⟩ hw
  · exact ⟨_, herr, errorCommit_endsInError .illegalCommand (s.withCmd w)⟩

/-- Settles O6: a word outside the table does not decode (O3). -/
theorem wordsOutsideTableRaiseIllegalCommand : Obligations.WordsOutsideTableRaiseIllegalCommand := by
  unfold Obligations.WordsOutsideTableRaiseIllegalCommand
  intro s w hw
  exact issueCommand_of_not_decodes (mt (decodeAcceptsExactlyTableRows w).1 hw) s

/-- Settles O5: a word that decodes has RSV 0. -/
theorem reservedBitsRaiseIllegalCommand : Obligations.ReservedBitsRaiseIllegalCommand := by
  unfold Obligations.ReservedBitsRaiseIllegalCommand
  intro s w hrsv
  refine issueCommand_of_not_decodes (fun ⟨i, hi⟩ => ?_) s
  obtain ⟨hzero, -⟩ := decode_inversion hi
  exact hrsv hzero

/-- Issuing a word that decodes runs its command where CMD holds the word (30_encoding.md R84). -/
theorem issueCommand_of_decode {w : CmdWord} {i : Instr} (h : decode w = .ok i) (s : State) :
    issueCommand w s = exec i (s.withCmd w) := by
  simp only [issueCommand, h]

/-- Settles O8: the step at a pending CMD write issues the word, and a command's word decodes to it (O1). -/
theorem commandWordRunsItsCommand : Obligations.CommandWordRunsItsCommand := by
  unfold Obligations.CommandWordRunsItsCommand
  intro s
  exact ⟨step_withFetchWord s, fun i hi => issueCommand_of_decode (decodeEncodeAllCommands i hi) s⟩

/-- A step performs the next pending action, with the others left pending (20_memory.md R69). -/
theorem step_of_queue_eq_cons {s : State} {act : HostAction} {rest : List HostAction} (h : s.queue = act :: rest) :
    step s = runAction act (s.withQueue rest) := by
  simp only [step, h]

/-- A 32-bit write at block offset 0x18 is acknowledged and issues the low half of its data (20_memory.md R52). -/
theorem runAction_write_cmd (data : Word) (s : State) :
    runAction (.regWrite 0x18 32 data) s = issueCommand (data.setWidth 32) (s.withReply .done) := by
  have hreg : regAt 0x18 32 = some .cmd := by decide
  simp only [runAction, hostWrite, hreg, writeRegister]

/-- Settles O7. -/
theorem stepRunsDecodedCommand : Obligations.StepRunsDecodedCommand := by
  unfold Obligations.StepRunsDecodedCommand
  intro s rest data i hqueue hdecode
  rw [step_of_queue_eq_cons hqueue, runAction_write_cmd, issueCommand_of_decode hdecode]

/-! ### The words of a line -/

/-- A line of one word without spaces (log 12). -/
theorem lineWords_of_word {m : List Char} (hne : m ≠ []) (hm : ' ' ∉ m) : lineWords m = [m] := by
  simp [lineWords, List.splitOn_eq_singleton hm, hne]

/-- A line of two words without spaces, one space apart (log 12). -/
theorem lineWords_of_two_words {m d : List Char} (hm : m ≠ []) (hd : d ≠ []) (hms : ' ' ∉ m) (hds : ' ' ∉ d) :
    lineWords (m ++ ' ' :: d) = [m, d] := by
  simp [lineWords, List.splitOn_append_cons_self_of_not_mem hms, List.splitOn_eq_singleton hds, hm, hd]

/-! ### Byte counts as text -/

/-- A printed byte count is made of decimal digits (30_encoding.md R89). -/
theorem isDigit_of_mem_toDigits_ten {n : Nat} {c : Char} (h : c ∈ Nat.toDigits 10 n) : c.isDigit = true :=
  Nat.isDigit_of_mem_toDigits (by decide) (by decide) h

theorem space_notMem_toDigits (n : Nat) : ' ' ∉ Nat.toDigits 10 n :=
  fun h => absurd (isDigit_of_mem_toDigits_ten h) (by decide)

/-- The numeral of a count 0 to 15 reads as that count (30_encoding.md R89). -/
theorem readCount_toDigits {n : Nat} (hn : n ≤ 15) : readCount (Nat.toDigits 10 n) = some n := by
  have hdigits : (Nat.toDigits 10 n).all Char.isDigit = true :=
    List.all_eq_true.2 fun _ hc => isDigit_of_mem_toDigits_ten hc
  have hvalue := Nat.ofDigitChars_ten_toDigits (n := n)
  rw [Nat.ofDigitChars_eq_foldl] at hvalue
  simp only [readCount, Nat.toDigits_ne_nil, hdigits, hvalue, hn, false_or, Bool.true_eq_false, if_false, if_true]

theorem not_isUpper_of_isDigit {c : Char} (h : c.isDigit = true) : ¬ c.isUpper = true := by
  simp only [Char.isDigit, Char.isUpper, Bool.and_eq_true, decide_eq_true_eq, ge_iff_le, UInt32.le_iff_toNat_le,
    not_and, not_le] at h ⊢
  have hA : 'A'.val.toNat = 65 := rfl
  have h9 : '9'.val.toNat = 57 := rfl
  omega

/-- A printed byte count has no letter case. -/
theorem map_toLower_countText (n : Nat) : (countText n).map Char.toLower = countText n := by
  have hdigit : ∀ c ∈ Nat.toDigits 10 n, c.toLower = c := fun c hc =>
    Char.toLower_eq_of_not_isUpper (not_isUpper_of_isDigit (isDigit_of_mem_toDigits_ten hc))
  have hspace : Char.toLower ' ' = ' ' := by decide
  rw [countText, List.map_cons, hspace, List.map_congr_left hdigit, List.map_id']

/-! ### Mnemonics -/

/-- A mnemonic is a word in upper case without spaces (30_encoding.md R89). -/
theorem mnemonicMap_keys : ∀ k ∈ mnemonicMap.map Prod.fst, k ≠ [] ∧ ' ' ∉ k ∧ k.map Char.toUpper = k := by
  decide

theorem mnemonicMap_keys_nodup : (mnemonicMap.map Prod.fst).Nodup := by
  decide

/-- `m` spells the mnemonic of the table's entry `e`, in any letter case (30_encoding.md R89). -/
def Spells (m : List Char) (e : OpcodeEntry) : Prop := (m.map Char.toUpper, e) ∈ mnemonicMap

/-- The assembler finds the entry a mnemonic stands for: no mnemonic stands twice in the table. -/
theorem Spells.find?_eq {m : List Char} {e : OpcodeEntry} (h : Spells m e) :
    mnemonicMap.find? (fun row => row.1 == m.map Char.toUpper) = some (m.map Char.toUpper, e) := by
  have hsome : (mnemonicMap.find? (fun row => row.1 == m.map Char.toUpper)).isSome :=
    List.find?_isSome.2 ⟨_, h, beq_self_eq_true (m.map Char.toUpper)⟩
  obtain ⟨row, hrow⟩ := Option.isSome_iff_exists.1 hsome
  have hkey : row.1 = m.map Char.toUpper := by simpa using List.find?_some hrow
  rw [hrow, List.inj_on_of_nodup_map mnemonicMap_keys_nodup (List.mem_of_find?_eq_some hrow) h hkey]

theorem Spells.ne_nil {m : List Char} {e : OpcodeEntry} (h : Spells m e) : m ≠ [] := by
  obtain ⟨hne, -, -⟩ := mnemonicMap_keys _ (List.mem_map_of_mem h)
  exact fun hm => hne (congrArg (List.map Char.toUpper) hm)

theorem Spells.space_notMem {m : List Char} {e : OpcodeEntry} (h : Spells m e) : ' ' ∉ m := by
  obtain ⟨-, hspace, -⟩ := mnemonicMap_keys _ (List.mem_map_of_mem h)
  exact fun hm => hspace (List.mem_map_of_mem (f := Char.toUpper) hm)

/-- A row's mnemonic spells its entry. -/
theorem spells_of_mem {k : List Char} {e : OpcodeEntry} (h : (k, e) ∈ mnemonicMap) : Spells k e := by
  obtain ⟨-, -, hupper⟩ := mnemonicMap_keys k (List.mem_map_of_mem h)
  rwa [Spells, hupper]

/-- Lower case spells the same. -/
theorem Spells.lower {m : List Char} {e : OpcodeEntry} (h : Spells m e) : Spells (m.map Char.toLower) e := by
  unfold Spells at h ⊢
  rwa [List.map_map, show Char.toUpper ∘ Char.toLower = Char.toUpper from funext Char.toUpper_toLower_eq_toUpper]

/-! ### Assembling -/

/-- A plain command's mnemonic assembles to it (30_encoding.md R89). -/
theorem assemble_of_spells_plain {m : List Char} {i : Instr} (h : Spells m (.plain i)) : assemble m = some i := by
  simp only [assemble, lineWords_of_word h.ne_nil h.space_notMem, h.find?_eq]

/-- A counted command's mnemonic and a byte count 0 to 15 assemble to it (30_encoding.md R89). -/
theorem assemble_of_spells_counted {m : List Char} {f : Nat → Instr} {n : Nat} (h : Spells m (.counted f))
    (hn : n ≤ 15) : assemble (m ++ countText n) = some (f n) := by
  have hwords := lineWords_of_two_words h.ne_nil Nat.toDigits_ne_nil h.space_notMem (space_notMem_toDigits n)
  simp only [assemble, countText, hwords, h.find?_eq, readCount_toDigits hn, Option.map_some]

/-- A command's text is its mnemonic, followed by its byte count if it takes one (30_encoding.md R89). -/
theorem text_spells_mnemonic (i : Instr) : (i.text, .plain i) ∈ mnemonicMap ∨
    ∃ k f, (k, .counted f) ∈ mnemonicMap ∧ i.text = k ++ countText i.count ∧ f i.count = i := by
  cases i with
  | fdec64 => exact .inl (List.mem_of_getElem? (i := 0) rfl)
  | frec64 => exact .inl (List.mem_of_getElem? (i := 1) rfl)
  | fdec32 => exact .inl (List.mem_of_getElem? (i := 2) rfl)
  | frec32 => exact .inl (List.mem_of_getElem? (i := 3) rfl)
  | mlenu => exact .inl (List.mem_of_getElem? (i := 4) rfl)
  | mlens => exact .inl (List.mem_of_getElem? (i := 5) rfl)
  | wrbe n => exact .inr ⟨_, _, List.mem_of_getElem? (i := 6) rfl, rfl, rfl⟩
  | wrle n => exact .inr ⟨_, _, List.mem_of_getElem? (i := 7) rfl, rfl, rfl⟩
  | wrbemu => exact .inl (List.mem_of_getElem? (i := 8) rfl)
  | wrbems => exact .inl (List.mem_of_getElem? (i := 9) rfl)
  | wrlemu => exact .inl (List.mem_of_getElem? (i := 10) rfl)
  | wrlems => exact .inl (List.mem_of_getElem? (i := 11) rfl)
  | rdbeu n => exact .inr ⟨_, _, List.mem_of_getElem? (i := 12) rfl, rfl, rfl⟩
  | rdbes n => exact .inr ⟨_, _, List.mem_of_getElem? (i := 13) rfl, rfl, rfl⟩
  | rdleu n => exact .inr ⟨_, _, List.mem_of_getElem? (i := 14) rfl, rfl, rfl⟩
  | rdles n => exact .inr ⟨_, _, List.mem_of_getElem? (i := 15) rfl, rfl, rfl⟩
  | leblen => exact .inl (List.mem_of_getElem? (i := 16) rfl)
  | lebwr => exact .inl (List.mem_of_getElem? (i := 17) rfl)
  | lebrd => exact .inl (List.mem_of_getElem? (i := 18) rfl)
  | vlulen => exact .inl (List.mem_of_getElem? (i := 19) rfl)
  | vluwr => exact .inl (List.mem_of_getElem? (i := 20) rfl)
  | vlurd => exact .inl (List.mem_of_getElem? (i := 21) rfl)

/-- Settles O59: the text spells the command's mnemonic, in lower case too, and its count reads back. -/
theorem assemblerReadsPrintedCommands : Obligations.AssemblerReadsPrintedCommands := by
  unfold Obligations.AssemblerReadsPrintedCommands
  intro i hi
  rcases text_spells_mnemonic i with hrow | ⟨k, f, hrow, htext, hf⟩
  · have hspells := spells_of_mem hrow
    exact ⟨assemble_of_spells_plain hspells, assemble_of_spells_plain hspells.lower⟩
  · have hspells := spells_of_mem hrow
    have hcount : i.count ≤ 15 := of_decide_eq_true hi
    rw [htext, List.map_append, map_toLower_countText, assemble_of_spells_counted hspells hcount,
      assemble_of_spells_counted hspells.lower hcount, hf]
    exact ⟨rfl, rfl⟩

end Sys2Proof.Machine
end

section
/-!
IEEE-754 (40_ieee754.md): the fields and the class of a pattern, the pattern of three fields or Overflow, and the round
trips between the two. Each fact is proved once for a format that fits 64 bits and used at binary64 and binary32.
-/

namespace Sys2Proof.Machine

/-! ### The pattern of three fields, as a number -/

/-- The pattern with the given sign, biased exponent and mantissa (40_ieee754.md R100, R101). -/
def floatPattern (fmt : FloatFormat) (sign e m : Nat) : Nat :=
  sign * 2 ^ (fmt.expWidth + fmt.manWidth) + e * 2 ^ fmt.manWidth + m

section Pattern

variable (fmt : FloatFormat) {sign e m : Nat}

/-- The mantissa stands below the exponent, and the exponent below the sign. -/
theorem floatPattern_eq_nested :
    floatPattern fmt sign e m = 2 ^ fmt.manWidth * (2 ^ fmt.expWidth * sign + e) + m := by
  rw [floatPattern, Nat.pow_add]
  ring

theorem floatPattern_mod_manWidth (hm : m < 2 ^ fmt.manWidth) :
    floatPattern fmt sign e m % 2 ^ fmt.manWidth = m := by
  rw [floatPattern_eq_nested, Nat.mul_add_mod, Nat.mod_eq_of_lt hm]

theorem floatPattern_div_manWidth (hm : m < 2 ^ fmt.manWidth) :
    floatPattern fmt sign e m / 2 ^ fmt.manWidth = 2 ^ fmt.expWidth * sign + e := by
  rw [floatPattern_eq_nested, Nat.mul_add_div (Nat.two_pow_pos _), Nat.div_eq_of_lt hm, Nat.add_zero]

theorem floatPattern_exponent (he : e < 2 ^ fmt.expWidth) (hm : m < 2 ^ fmt.manWidth) :
    floatPattern fmt sign e m / 2 ^ fmt.manWidth % 2 ^ fmt.expWidth = e := by
  rw [floatPattern_div_manWidth fmt hm, Nat.mul_add_mod, Nat.mod_eq_of_lt he]

theorem floatPattern_sign (he : e < 2 ^ fmt.expWidth) (hm : m < 2 ^ fmt.manWidth) :
    floatPattern fmt sign e m / 2 ^ (fmt.expWidth + fmt.manWidth) = sign := by
  rw [Nat.add_comm, Nat.pow_add, ← Nat.div_div_eq_div_mul, floatPattern_div_manWidth fmt hm,
    Nat.mul_add_div (Nat.two_pow_pos _), Nat.div_eq_of_lt he, Nat.add_zero]

/-- A pattern has one bit more than its exponent and its mantissa. -/
theorem floatPattern_lt (hs : sign < 2) (he : e < 2 ^ fmt.expWidth) (hm : m < 2 ^ fmt.manWidth) :
    floatPattern fmt sign e m < 2 ^ (fmt.expWidth + fmt.manWidth + 1) := by
  rw [Nat.pow_succ', ← Nat.div_lt_iff_lt_mul (Nat.two_pow_pos _), floatPattern_sign fmt he hm]
  exact hs

/-- The pattern of the fields of p is p, cut to the format's bits. -/
theorem floatPattern_of_fields (p : Nat) :
    floatPattern fmt (p / 2 ^ (fmt.expWidth + fmt.manWidth) % 2) (p / 2 ^ fmt.manWidth % 2 ^ fmt.expWidth)
      (p % 2 ^ fmt.manWidth) = p % 2 ^ (fmt.expWidth + fmt.manWidth + 1) := by
  rw [Nat.mod_pow_succ, Nat.add_comm fmt.expWidth, Nat.pow_add, Nat.mod_mul, floatPattern, Nat.add_comm fmt.expWidth,
    Nat.pow_add]
  ring

end Pattern

/-! ### What the IEEE-754 commands run -/

theorem exec_fdec64 (s : State) : exec .fdec64 s = finish (.ok (decompose Config.f64 s.a)) s := rfl

theorem exec_frec64 (s : State) : exec .frec64 s = finish (recompose Config.f64 s.a s.b s.c) s := rfl

theorem exec_fdec32 (s : State) :
    exec .fdec32 s = finish (.ok (decompose Config.f32 ((s.a.extractLsb' 0 32).setWidth 64))) s := rfl

theorem exec_frec32 (s : State) : exec .frec32 s = finish (recompose Config.f32 s.a s.b s.c) s := rfl

/-- The pattern FDEC32 takes, as a number (40_ieee754.md R106). -/
theorem lowHalf_toNat (v : Word) : ((v.extractLsb' 0 32).setWidth 64).toNat = v.toNat % 2 ^ 32 := by
  rw [BitVec.toNat_setWidth, BitVec.extractLsb'_toNat, Nat.shiftRight_zero]
  omega

/-- FDEC32 takes a 32-bit pattern as it is. -/
theorem lowHalf_eq_self {v : Word} (h : v.toNat < 2 ^ 32) : (v.extractLsb' 0 32).setWidth 64 = v :=
  BitVec.eq_of_toNat_eq ((lowHalf_toNat v).trans (Nat.mod_eq_of_lt h))

/-! ### A command that decomposes or recomposes -/

theorem CompletesWith.err_eq_zero {s t : State} {v0 v1 v2 v3 : Nat} (h : CompletesWith s t v0 v1 v2 v3) :
    t.err = 0 := by
  obtain ⟨-, -, -, hst⟩ := h
  exact BitVec.eq_of_toNat_eq (hst.err_toNat (by decide))

/-- A recomposition whose exponent or mantissa does not fit ends in Overflow (40_ieee754.md R105, R107). -/
theorem finish_recompose_overflow (fmt : FloatFormat) (s : State)
    (h : 2 ^ fmt.expWidth ≤ s.b.toNat ∨ 2 ^ fmt.manWidth ≤ s.c.toNat) :
    ∃ t, finish (recompose fmt s.a s.b s.c) s = .next t ∧ EndsInError s t 4 :=
  ⟨_, by rw [recompose_overflow fmt s.a s.b s.c h, finish_error], errorCommit_endsInError .overflow s⟩

section Format

variable (fmt : FloatFormat) (hw : fmt.expWidth + fmt.manWidth < 64) (s : State)

include hw

/-- A decomposition completes with the pattern's fields and their class (40_ieee754.md R104, R106). -/
theorem finish_decompose (p : Word) : ∃ t, finish (.ok (decompose fmt p)) s = .next t ∧
    CompletesWith s t (p.toNat / 2 ^ (fmt.expWidth + fmt.manWidth) % 2)
      (p.toNat / 2 ^ fmt.manWidth % 2 ^ fmt.expWidth) (p.toNat % 2 ^ fmt.manWidth)
      (classNumber fmt.expWidth (p.toNat / 2 ^ fmt.manWidth % 2 ^ fmt.expWidth) (p.toNat % 2 ^ fmt.manWidth)) := by
  have hdone := successCommit_completesWith (decompose fmt p) s rfl rfl rfl
  obtain ⟨h0, h1, h2, h3⟩ := decompose_toNat fmt p hw
  rw [h0, h1, h2, h3] at hdone
  exact ⟨_, finish_ok _ s, hdone⟩

/-- A recomposition whose exponent and mantissa fit completes with the pattern (40_ieee754.md R105, R107). -/
theorem finish_recompose (hb : s.b.toNat < 2 ^ fmt.expWidth) (hc : s.c.toNat < 2 ^ fmt.manWidth) :
    ∃ t, finish (recompose fmt s.a s.b s.c) s = .next t ∧
      CompletesWith s t (floatPattern fmt (s.a.toNat % 2) s.b.toNat s.c.toNat) 0 0 0 := by
  obtain ⟨y, hok, hy⟩ := recompose_ok fmt s.a s.b s.c hw hb hc
  have hdone := successCommit_completesWith { r0 := y } s rfl rfl rfl
  rw [hy] at hdone
  exact ⟨_, by rw [hok, finish_ok], hdone⟩

/-- Decomposing p, then recomposing R0 to R2 written back to A to C, gives p cut to the format's bits
(40_ieee754.md R108). -/
theorem finish_decompose_recompose (p : Word) : ∃ t u, finish (.ok (decompose fmt p)) s = .next t ∧
    finish (recompose fmt t.r0 t.r1 t.r2) (((t.withA t.r0).withB t.r1).withC t.r2) = .next u ∧ u.err = 0 ∧
      u.r0.toNat = p.toNat % 2 ^ (fmt.expWidth + fmt.manWidth + 1) := by
  obtain ⟨t, ht, -, -, ⟨h0, h1, h2, -⟩, -⟩ := finish_decompose fmt hw s p
  have hb : t.r1.toNat < 2 ^ fmt.expWidth := h1 ▸ Nat.mod_lt _ (Nat.two_pow_pos _)
  have hc : t.r2.toNat < 2 ^ fmt.manWidth := h2 ▸ Nat.mod_lt _ (Nat.two_pow_pos _)
  obtain ⟨u, hu, hdone⟩ := finish_recompose fmt hw (((t.withA t.r0).withB t.r1).withC t.r2) hb hc
  have ⟨_, _, ⟨hr0, _⟩, _⟩ := hdone
  refine ⟨t, u, ht, hu, hdone.err_eq_zero, hr0.trans ?_⟩
  calc floatPattern fmt (t.r0.toNat % 2) t.r1.toNat t.r2.toNat
    _ = floatPattern fmt (p.toNat / 2 ^ (fmt.expWidth + fmt.manWidth) % 2)
          (p.toNat / 2 ^ fmt.manWidth % 2 ^ fmt.expWidth) (p.toNat % 2 ^ fmt.manWidth) := by
        rw [h0, h1, h2, Nat.mod_mod]
    _ = p.toNat % 2 ^ (fmt.expWidth + fmt.manWidth + 1) := floatPattern_of_fields fmt p.toNat

/-- Recomposing A, B and C, then decomposing R0 written back to A, gives A[0], B and C (40_ieee754.md R108). -/
theorem finish_recompose_decompose (hb : s.b.toNat < 2 ^ fmt.expWidth) (hc : s.c.toNat < 2 ^ fmt.manWidth) :
    ∃ t u, finish (recompose fmt s.a s.b s.c) s = .next t ∧ t.err = 0 ∧
      t.r0.toNat < 2 ^ (fmt.expWidth + fmt.manWidth + 1) ∧
      finish (.ok (decompose fmt t.r0)) (t.withA t.r0) = .next u ∧
      u.r0.toNat = s.a.toNat % 2 ∧ u.r1 = s.b ∧ u.r2 = s.c := by
  have hsign : s.a.toNat % 2 < 2 := Nat.mod_lt _ Nat.two_pos
  obtain ⟨t, ht, hdone⟩ := finish_recompose fmt hw s hb hc
  have ⟨_, _, ⟨hr0, _⟩, _⟩ := hdone
  obtain ⟨u, hu, -, -, ⟨h0, h1, h2, -⟩, -⟩ := finish_decompose fmt hw (t.withA t.r0) t.r0
  rw [hr0, floatPattern_sign fmt hb hc, Nat.mod_mod] at h0
  rw [hr0, floatPattern_exponent fmt hb hc] at h1
  rw [hr0, floatPattern_mod_manWidth fmt hc] at h2
  exact ⟨t, u, ht, hdone.err_eq_zero, hr0 ▸ floatPattern_lt fmt hsign hb hc, hu, h0, BitVec.eq_of_toNat_eq h1,
    BitVec.eq_of_toNat_eq h2⟩

end Format

/-! ### The obligations -/

theorem f64_widths_lt : Config.f64.expWidth + Config.f64.manWidth < 64 := by decide

theorem f32_widths_lt : Config.f32.expWidth + Config.f32.manWidth < 64 := by decide

/-- Settles O22: the sign is the top bit of a 64-bit pattern. -/
theorem fdec64GivesFieldsAndClass : Obligations.Fdec64GivesFieldsAndClass := by
  unfold Obligations.Fdec64GivesFieldsAndClass
  refine ⟨by decide, fun s => ?_⟩
  have hsign : s.a.toNat / 2 ^ 63 % 2 = s.a.toNat / 2 ^ 63 := by
    have := s.a.isLt
    omega
  rw [exec_fdec64, ← hsign]
  exact finish_decompose Config.f64 f64_widths_lt s s.a

/-- Settles O23. -/
theorem frec64GivesPatternOrOverflow : Obligations.Frec64GivesPatternOrOverflow := by
  unfold Obligations.Frec64GivesPatternOrOverflow
  refine ⟨by decide, fun s => ?_⟩
  rw [exec_frec64]
  exact ⟨finish_recompose Config.f64 f64_widths_lt s, finish_recompose_overflow Config.f64 s⟩

/-- Settles O24: the pattern is A[31:0] (`lowHalf_toNat`), and the sign is its top bit. -/
theorem fdec32GivesFieldsAndClass : Obligations.Fdec32GivesFieldsAndClass := by
  unfold Obligations.Fdec32GivesFieldsAndClass
  refine ⟨by decide, fun s => ?_⟩
  have hsign : s.a.toNat % 2 ^ 32 / 2 ^ 31 % 2 = s.a.toNat % 2 ^ 32 / 2 ^ 31 := by omega
  have hman : s.a.toNat % 2 ^ 32 % 2 ^ 23 = s.a.toNat % 2 ^ 23 := by omega
  rw [exec_fdec32, ← hsign, ← hman, ← lowHalf_toNat]
  exact finish_decompose Config.f32 f32_widths_lt s _

/-- Settles O25. -/
theorem frec32GivesPatternOrOverflow : Obligations.Frec32GivesPatternOrOverflow := by
  unfold Obligations.Frec32GivesPatternOrOverflow
  refine ⟨by decide, fun s => ?_⟩
  rw [exec_frec32]
  exact ⟨finish_recompose Config.f32 f32_widths_lt s, finish_recompose_overflow Config.f32 s⟩

/-- Settles O26: the two round trips of a format, at both formats; a 32-bit pattern is its own low half. -/
theorem floatFieldsRoundTrip : Obligations.FloatFieldsRoundTrip := by
  unfold Obligations.FloatFieldsRoundTrip
  refine ⟨fun s => ?_, fun s hb hc => ?_, fun s => ?_, fun s hb hc => ?_⟩
  · obtain ⟨t, u, ht, hu, herr, hr0⟩ := finish_decompose_recompose Config.f64 f64_widths_lt s s.a
    exact ⟨t, u, ht, hu, herr, BitVec.eq_of_toNat_eq (hr0.trans (Nat.mod_eq_of_lt s.a.isLt))⟩
  · obtain ⟨t, u, ht, herr, -, hu, hfields⟩ := finish_recompose_decompose Config.f64 f64_widths_lt s hb hc
    exact ⟨t, u, ht, herr, hu, hfields⟩
  · obtain ⟨t, u, ht, hu, herr, hr0⟩ := finish_decompose_recompose Config.f32 f32_widths_lt s _
    rw [lowHalf_toNat] at hr0
    exact ⟨t, u, ht, hu, herr, hr0.trans (Nat.mod_mod _ (2 ^ 32))⟩
  · obtain ⟨t, u, ht, herr, hlt, hu, hfields⟩ := finish_recompose_decompose Config.f32 f32_widths_lt s hb hc
    refine ⟨t, u, ht, herr, ?_, hfields⟩
    rw [exec_fdec32, State.withA_a, lowHalf_eq_self hlt]
    exact hu

end Sys2Proof.Machine
end

section
/-!
The minimal-width codec (41_minwidth.md): the smallest byte counts, the writes and the reads in both byte orders, and the
laws that join them. A write or a read is proved once for both orders, and each command is one use of it.
-/

namespace Sys2Proof

/-! ### Words with a byte count -/

/-- The word OPC + 256 n decodes to the command with that operation code and count (30_encoding.md R86). -/
theorem decode_opcode_add_count (i : Instr) (hn : i.count ≤ 15) :
    decode (BitVec.ofNat 32 (i.opcode.toNat + 256 * i.count)) = .ok i := by
  have hopc := i.opcode.isLt
  have hw : (BitVec.ofNat 32 (i.opcode.toNat + 256 * i.count)).toNat = i.opcode.toNat + 256 * i.count := by
    rw [BitVec.toNat_ofNat]
    omega
  refine decode_eq_ok_iff.2 ⟨BitVec.eq_of_toNat_eq ?_, BitVec.eq_of_toNat_eq ?_, ?_⟩
  · simp only [rsvOf, BitVec.extractLsb'_toNat, hw, Nat.shiftRight_eq_div_pow, BitVec.ofNat_eq_ofNat, BitVec.toNat_ofNat]
    omega
  · simp only [opcOf, BitVec.extractLsb'_toNat, hw, Nat.shiftRight_eq_div_pow]
    omega
  · simp only [countOf, BitVec.extractLsb'_toNat, hw, Nat.shiftRight_eq_div_pow]
    omega

end Sys2Proof

namespace Sys2Proof.Machine

/-! ### What the minimal-width commands run -/

section Commands

variable (s : State) (n : Nat)

theorem exec_mlenu : exec .mlenu s = finish (.ok { r0 := BitVec.ofNat 64 (minimalLen s.a) }) s := rfl
theorem exec_mlens : exec .mlens s = finish (.ok { r0 := BitVec.ofNat 64 (minimalLenSigned s.a) }) s := rfl
theorem exec_wrbe : exec (.wrbe n) s = finish (mwWrite n s.a .be s) s := rfl
theorem exec_wrle : exec (.wrle n) s = finish (mwWrite n s.a .le s) s := rfl
theorem exec_wrbemu : exec .wrbemu s = finish (mwWrite (minimalLen s.a) s.a .be s) s := rfl
theorem exec_wrbems : exec .wrbems s = finish (mwWrite (minimalLenSigned s.a) s.a .be s) s := rfl
theorem exec_wrlemu : exec .wrlemu s = finish (mwWrite (minimalLen s.a) s.a .le s) s := rfl
theorem exec_wrlems : exec .wrlems s = finish (mwWrite (minimalLenSigned s.a) s.a .le s) s := rfl
theorem exec_rdbeu : exec (.rdbeu n) s = finish (mwRead n false .be s) s := rfl
theorem exec_rdbes : exec (.rdbes n) s = finish (mwRead n true .be s) s := rfl
theorem exec_rdleu : exec (.rdleu n) s = finish (mwRead n false .le s) s := rfl
theorem exec_rdles : exec (.rdles n) s = finish (mwRead n true .le s) s := rfl

end Commands

/-! ### The length commands -/

/-- A command that stages only a length of at most 8 completes with it in R0 (41_minwidth.md R124, R125). -/
theorem finish_length_completesWith {n : Nat} (h8 : n ≤ 8) (s : State) :
    ∃ t, finish (.ok { r0 := BitVec.ofNat 64 n }) s = .next t ∧ CompletesWith s t n 0 0 0 := by
  have hdone := successCommit_completesWith { r0 := BitVec.ofNat 64 n } s rfl rfl rfl
  rw [ofNat_toNat_count n h8] at hdone
  exact ⟨_, finish_ok _ s, hdone⟩

/-- Settles O27. -/
theorem mlenuGivesMinimalLength : Obligations.MlenuGivesMinimalLength := by
  unfold Obligations.MlenuGivesMinimalLength
  refine ⟨by decide, fun s => ?_⟩
  have hmin := minimalLen_isMinimalUnsigned s.a
  have ⟨_, h8, _⟩ := hmin
  obtain ⟨t, ht, hdone⟩ := finish_length_completesWith h8 s
  exact ⟨t, _, ht, hmin, hdone⟩

/-- Settles O28. -/
theorem mlensGivesMinimalSignedLength : Obligations.MlensGivesMinimalSignedLength := by
  unfold Obligations.MlensGivesMinimalSignedLength
  refine ⟨by decide, fun s => ?_⟩
  have hmin := minimalLenSigned_isMinimalSigned s.a
  have ⟨_, h8, _⟩ := hmin
  obtain ⟨t, ht, hdone⟩ := finish_length_completesWith h8 s
  exact ⟨t, _, ht, hmin, hdone⟩

/-! ### The writes -/

/-- A minimal-width write of no byte or of more than 8 ends in InvalidLength, whatever the room (41_minwidth.md R122). -/
theorem finish_mwWrite_invalidLength {n : Nat} (v : Word) (order : ByteOrder) (s : State) (h : n = 0 ∨ 9 ≤ n) :
    ∃ t, finish (mwWrite n v order s) s = .next t ∧ EndsInError s t 2 :=
  ⟨_, by rw [mwWrite_invalidLength n v order s (by omega), finish_error], errorCommit_endsInError .invalidLength s⟩

/-- A minimal-width write that does not fit ends in InsufficientBuffer (41_minwidth.md R122). -/
theorem finish_mwWrite_insufficientBuffer {n : Nat} (v : Word) (order : ByteOrder) {s : State} (h1 : 1 ≤ n)
    (h8 : n ≤ 8) (hfit : ¬ Fits s n) : ∃ t, finish (mwWrite n v order s) s = .next t ∧ EndsInError s t 1 :=
  ⟨_, by rw [mwWrite_insufficientBuffer n v order s h1 h8 hfit, finish_error],
    errorCommit_endsInError .insufficientBuffer s⟩

/-- The two endings of a write of a legal length (41_minwidth.md R122). -/
theorem finish_mwWrite_of_legal {n : Nat} (v : Word) (order : ByteOrder) (s : State) (h1 : 1 ≤ n) (h8 : n ≤ 8) :
    (Fits s n → ∃ t, finish (mwWrite n v order s) s = .next t ∧
      Stored s t n fun i => v.toNat / 256 ^ byteIndex order n i % 256) ∧
    (¬ Fits s n → ∃ t, finish (mwWrite n v order s) s = .next t ∧ EndsInError s t 1) :=
  ⟨finish_mwWrite_stored v order h1 h8, finish_mwWrite_insufficientBuffer v order h1 h8⟩

/-- The three endings of a write, for any length (41_minwidth.md R122). -/
theorem finish_mwWrite_endings (n : Nat) (v : Word) (order : ByteOrder) (s : State) :
    (1 ≤ n → n ≤ 8 → Fits s n → ∃ t, finish (mwWrite n v order s) s = .next t ∧
      Stored s t n fun i => v.toNat / 256 ^ byteIndex order n i % 256) ∧
    (n = 0 ∨ 9 ≤ n → ∃ t, finish (mwWrite n v order s) s = .next t ∧ EndsInError s t 2) ∧
    (1 ≤ n → n ≤ 8 → ¬ Fits s n → ∃ t, finish (mwWrite n v order s) s = .next t ∧ EndsInError s t 1) :=
  ⟨finish_mwWrite_stored v order, finish_mwWrite_invalidLength v order s, finish_mwWrite_insufficientBuffer v order⟩

/-- Settles O29: in big-endian order byte OFF + i is byte n - 1 - i of A. -/
theorem wrbeStoresBigEndian : Obligations.WrbeStoresBigEndian := by
  unfold Obligations.WrbeStoresBigEndian
  refine ⟨fun n hn => decode_opcode_add_count (.wrbe n) hn, fun s n => ?_⟩
  rw [exec_wrbe]
  exact finish_mwWrite_endings n s.a .be s

/-- Settles O30: in little-endian order byte OFF + i is byte i of A. -/
theorem wrleStoresLittleEndian : Obligations.WrleStoresLittleEndian := by
  unfold Obligations.WrleStoresLittleEndian
  refine ⟨fun n hn => decode_opcode_add_count (.wrle n) hn, fun s n => ?_⟩
  rw [exec_wrle]
  exact finish_mwWrite_endings n s.a .le s

/-! ### The minimal writes -/

/-- Every minimal unsigned length of v is the one the model computes (41_minwidth.md R120). -/
theorem IsMinimalUnsigned.eq_minimalLen {v : Word} {n : Nat} (h : IsMinimalUnsigned v.toNat n) : n = minimalLen v :=
  h.unique (minimalLen_isMinimalUnsigned v)

/-- Every minimal signed length of v is the one the model computes (41_minwidth.md R121). -/
theorem IsMinimalSigned.eq_minimalLenSigned {v : Word} {n : Nat} (h : IsMinimalSigned v.toInt n) :
    n = minimalLenSigned v :=
  h.unique (minimalLenSigned_isMinimalSigned v)

/-- Settles O31. -/
theorem wrbemuStoresMinimalUnsigned : Obligations.WrbemuStoresMinimalUnsigned := by
  unfold Obligations.WrbemuStoresMinimalUnsigned
  refine ⟨by decide, fun s n hmin => ?_⟩
  have ⟨h1, h8, _⟩ := hmin
  rw [exec_wrbemu, ← hmin.eq_minimalLen]
  exact finish_mwWrite_of_legal s.a .be s h1 h8

/-- Settles O32. -/
theorem wrbemsStoresMinimalSigned : Obligations.WrbemsStoresMinimalSigned := by
  unfold Obligations.WrbemsStoresMinimalSigned
  refine ⟨by decide, fun s n hmin => ?_⟩
  have ⟨h1, h8, _⟩ := hmin
  rw [exec_wrbems, ← hmin.eq_minimalLenSigned]
  exact finish_mwWrite_of_legal s.a .be s h1 h8

/-- Settles O33. -/
theorem wrlemuStoresMinimalUnsigned : Obligations.WrlemuStoresMinimalUnsigned := by
  unfold Obligations.WrlemuStoresMinimalUnsigned
  refine ⟨by decide, fun s n hmin => ?_⟩
  have ⟨h1, h8, _⟩ := hmin
  rw [exec_wrlemu, ← hmin.eq_minimalLen]
  exact finish_mwWrite_of_legal s.a .le s h1 h8

/-- Settles O34. -/
theorem wrlemsStoresMinimalSigned : Obligations.WrlemsStoresMinimalSigned := by
  unfold Obligations.WrlemsStoresMinimalSigned
  refine ⟨by decide, fun s n hmin => ?_⟩
  have ⟨h1, h8, _⟩ := hmin
  rw [exec_wrlems, ← hmin.eq_minimalLenSigned]
  exact finish_mwWrite_of_legal s.a .le s h1 h8

/-! ### The reads -/

/-- The value in the given byte order of the n bytes from offset o (20_memory.md R58). -/
def State.fieldValue (s : State) (order : ByteOrder) (o n : Nat) : Nat :=
  match order with
  | .be => s.beValue o n
  | .le => s.leValue o n

/-- The value a read gives for n bytes whose unsigned value is v (41_minwidth.md R123). -/
def readValue (signed : Bool) (n v : Nat) : Nat :=
  match signed with
  | true => signExtendedValue n v
  | false => v

/-- A gathering is the value of the bytes from OFF in its order (41_minwidth.md R123). -/
theorem gather_toNat (s : State) (order : ByteOrder) {n : Nat} (h8 : n ≤ 8) :
    (s.gather order n).toNat = s.fieldValue order s.off.toNat n := by
  cases order with
  | be => exact gather_be_toNat s n h8
  | le => exact gather_le_toNat s n h8

/-- The bytes' value leaves the bits above them 0. -/
theorem State.fieldValue_lt (s : State) (order : ByteOrder) (o n : Nat) : s.fieldValue order o n < 2 ^ (8 * n) := by
  cases order with
  | be => exact s.beValue_lt o n
  | le => exact s.leValue_lt o n

/-- The word a read stages, as a number: a signed read of no byte is not sign-extended and gives 0 either way
(41_minwidth.md R123). -/
theorem readWord_toNat (s : State) (signed : Bool) (order : ByteOrder) {n : Nat} (h8 : n ≤ 8) :
    (if signed = true ∧ n > 0 then signExtendBytes (s.gather order n) n else s.gather order n).toNat =
      readValue signed n (s.fieldValue order s.off.toNat n) := by
  have hval := gather_toNat s order h8
  cases signed with
  | false => exact hval
  | true =>
    by_cases hn : 0 < n
    · rw [if_pos ⟨rfl, hn⟩,
        signExtendBytes_toNat _ n hn h8 (hval ▸ s.fieldValue_lt order s.off.toNat n), hval, readValue]
    · rw [if_neg (fun h => hn h.2), hval, readValue, signExtendedValue, if_neg (fun h => hn h.1)]

/-- A minimal-width read that fits consumes n bytes with their value (41_minwidth.md R123). -/
theorem finish_mwRead_readValue {n : Nat} (signed : Bool) (order : ByteOrder) {s : State} (h8 : n ≤ 8)
    (hfit : Fits s n) : ∃ t, finish (mwRead n signed order s) s = .next t ∧
      Consumed s t n (readValue signed n (s.fieldValue order s.off.toNat n)) := by
  rw [← readWord_toNat s signed order h8, mwRead_ok n signed order s h8 hfit, finish_ok]
  exact ⟨_, rfl, successCommit_consumed s n _ h8 hfit⟩

/-- A minimal-width read of more than 8 bytes ends in InvalidLength, whatever the room (41_minwidth.md R123). -/
theorem finish_mwRead_invalidLength {n : Nat} (signed : Bool) (order : ByteOrder) (s : State) (h : 9 ≤ n) :
    ∃ t, finish (mwRead n signed order s) s = .next t ∧ EndsInError s t 2 :=
  ⟨_, by rw [mwRead_invalidLength n signed order s h, finish_error], errorCommit_endsInError .invalidLength s⟩

/-- A minimal-width read beyond the remaining bytes ends in InsufficientBuffer (41_minwidth.md R123). -/
theorem finish_mwRead_insufficientBuffer {n : Nat} (signed : Bool) (order : ByteOrder) {s : State} (h8 : n ≤ 8)
    (hfit : ¬ Fits s n) : ∃ t, finish (mwRead n signed order s) s = .next t ∧ EndsInError s t 1 :=
  ⟨_, by rw [mwRead_insufficientBuffer n signed order s h8 hfit, finish_error],
    errorCommit_endsInError .insufficientBuffer s⟩

/-- The three endings of a read (41_minwidth.md R123). -/
theorem finish_mwRead_endings (n : Nat) (signed : Bool) (order : ByteOrder) (s : State) :
    (n ≤ 8 → Fits s n → ∃ t, finish (mwRead n signed order s) s = .next t ∧
      Consumed s t n (readValue signed n (s.fieldValue order s.off.toNat n))) ∧
    (9 ≤ n → ∃ t, finish (mwRead n signed order s) s = .next t ∧ EndsInError s t 2) ∧
    (n ≤ 8 → ¬ Fits s n → ∃ t, finish (mwRead n signed order s) s = .next t ∧ EndsInError s t 1) :=
  ⟨finish_mwRead_readValue signed order, finish_mwRead_invalidLength signed order s,
    finish_mwRead_insufficientBuffer signed order⟩

/-- Settles O35. -/
theorem rdbeuReadsBigEndian : Obligations.RdbeuReadsBigEndian := by
  unfold Obligations.RdbeuReadsBigEndian
  refine ⟨fun n hn => decode_opcode_add_count (.rdbeu n) hn, fun s n => ?_⟩
  rw [exec_rdbeu]
  exact finish_mwRead_endings n false .be s

/-- Settles O36. -/
theorem rdbesReadsBigEndianSigned : Obligations.RdbesReadsBigEndianSigned := by
  unfold Obligations.RdbesReadsBigEndianSigned
  refine ⟨fun n hn => decode_opcode_add_count (.rdbes n) hn, fun s n => ?_⟩
  rw [exec_rdbes]
  exact finish_mwRead_endings n true .be s

/-- Settles O37. -/
theorem rdleuReadsLittleEndian : Obligations.RdleuReadsLittleEndian := by
  unfold Obligations.RdleuReadsLittleEndian
  refine ⟨fun n hn => decode_opcode_add_count (.rdleu n) hn, fun s n => ?_⟩
  rw [exec_rdleu]
  exact finish_mwRead_endings n false .le s

/-- Settles O38. -/
theorem rdlesReadsLittleEndianSigned : Obligations.RdlesReadsLittleEndianSigned := by
  unfold Obligations.RdlesReadsLittleEndianSigned
  refine ⟨fun n hn => decode_opcode_add_count (.rdles n) hn, fun s n => ?_⟩
  rw [exec_rdles]
  exact finish_mwRead_endings n true .le s

/-! ### The status and the advance of OFF -/

/-- ST.NB as the status gives it (10_state.md R26). -/
theorem Status.nb_toNat {t : State} {e n : Nat} (h : Status t e n) (he : e < 16) (hn : n < 16) : t.nb.toNat = n := by
  unfold Status at h
  simp only [State.nb, BitVec.extractLsb'_toNat, Nat.shiftRight_eq_div_pow, h]
  omega

/-- The command ended with error code `e` and moved OFF over the n bytes that ST.NB reports. -/
def MovesCursor (s t : State) (e n : Nat) : Prop := Status t e n ∧ t.off.toNat = s.off.toNat + n

theorem Stored.movesCursor {s t : State} {n : Nat} {f : Nat → Nat} (h : Stored s t n f) : MovesCursor s t 0 n := by
  obtain ⟨-, hoff, -, hst, -⟩ := h
  exact ⟨hst, hoff⟩

theorem Consumed.movesCursor {s t : State} {n v : Nat} (h : Consumed s t n v) : MovesCursor s t 0 n := by
  obtain ⟨-, hoff, -, -, hst⟩ := h
  exact ⟨hst, hoff⟩

theorem EndsInError.movesCursor {s t : State} {e : Nat} (h : EndsInError s t e) : MovesCursor s t e 0 := by
  obtain ⟨-, ⟨hoff, -⟩, -, hst⟩ := h
  exact ⟨hst, congrArg BitVec.toNat hoff⟩

/-- The status and the cursor after a write do not depend on its byte order (41_minwidth.md R122). -/
theorem finish_mwWrite_movesCursor (n : Nat) (v : Word) (s : State) :
    ∃ e k, ∀ order, ∃ t, finish (mwWrite n v order s) s = .next t ∧ MovesCursor s t e k := by
  by_cases hn : n = 0 ∨ 9 ≤ n
  · refine ⟨2, 0, fun order => ?_⟩
    obtain ⟨t, ht, herr⟩ := finish_mwWrite_invalidLength v order s hn
    exact ⟨t, ht, herr.movesCursor⟩
  · by_cases hfit : Fits s n
    · refine ⟨0, n, fun order => ?_⟩
      obtain ⟨t, ht, hstored⟩ := finish_mwWrite_stored v order (by omega) (by omega) hfit
      exact ⟨t, ht, hstored.movesCursor⟩
    · refine ⟨1, 0, fun order => ?_⟩
      obtain ⟨t, ht, herr⟩ := finish_mwWrite_insufficientBuffer v order (by omega) (by omega) hfit
      exact ⟨t, ht, herr.movesCursor⟩

/-- The status and the cursor after a read do not depend on its byte order (41_minwidth.md R123). -/
theorem finish_mwRead_movesCursor (n : Nat) (signed : Bool) (s : State) :
    ∃ e k, ∀ order, ∃ t, finish (mwRead n signed order s) s = .next t ∧ MovesCursor s t e k := by
  by_cases hn : 9 ≤ n
  · refine ⟨2, 0, fun order => ?_⟩
    obtain ⟨t, ht, herr⟩ := finish_mwRead_invalidLength signed order s hn
    exact ⟨t, ht, herr.movesCursor⟩
  · by_cases hfit : Fits s n
    · refine ⟨0, n, fun order => ?_⟩
      obtain ⟨t, ht, hread⟩ := finish_mwRead_readValue signed order (by omega) hfit
      exact ⟨t, ht, hread.movesCursor⟩
    · refine ⟨1, 0, fun order => ?_⟩
      obtain ⟨t, ht, herr⟩ := finish_mwRead_insufficientBuffer signed order (by omega) hfit
      exact ⟨t, ht, herr.movesCursor⟩

/-- Two rules that move the cursor alike end with the same ST and OFF. -/
theorem MovesCursor.st_eq_off_eq {s t u : State} {e n : Nat} (ht : MovesCursor s t e n) (hu : MovesCursor s u e n) :
    t.st = u.st ∧ t.off = u.off := by
  obtain ⟨hst, hoff⟩ := ht
  obtain ⟨hst', hoff'⟩ := hu
  exact ⟨BitVec.eq_of_toNat_eq (hst.trans hst'.symm), BitVec.eq_of_toNat_eq (hoff.trans hoff'.symm)⟩

/-- A rule whose status and cursor do not depend on the byte order gives the two orders' commands the same ST and OFF. -/
theorem twins_same_st_off {s : State} {rule : ByteOrder → Except ErrorKind Staged}
    (h : ∃ e k, ∀ order, ∃ t, finish (rule order) s = .next t ∧ MovesCursor s t e k) :
    ∃ t u, finish (rule .be) s = .next t ∧ finish (rule .le) s = .next u ∧ t.st = u.st ∧ t.off = u.off := by
  obtain ⟨e, k, hmoves⟩ := h
  obtain ⟨t, ht, htmoves⟩ := hmoves .be
  obtain ⟨u, hu, humoves⟩ := hmoves .le
  exact ⟨t, u, ht, hu, htmoves.st_eq_off_eq humoves⟩

/-- Byte i of the big-endian write and byte n - 1 - i of the little-endian write are one byte of v
(20_memory.md R58). -/
theorem finish_mwWrite_mirrored {n : Nat} (v : Word) {s : State} (h1 : 1 ≤ n) (h8 : n ≤ 8) (hfit : Fits s n) :
    ∃ t u, finish (mwWrite n v .be s) s = .next t ∧ finish (mwWrite n v .le s) s = .next u ∧
      ∀ i, i < n → t.byteAt (s.off.toNat + i) = u.byteAt (s.off.toNat + (n - 1 - i)) := by
  obtain ⟨t, ht, -, -, -, -, hbe, -⟩ := finish_mwWrite_stored v .be h1 h8 hfit
  obtain ⟨u, hu, -, -, -, -, hle, -⟩ := finish_mwWrite_stored v .le h1 h8 hfit
  exact ⟨t, u, ht, hu, fun i hi => BitVec.eq_of_toNat_eq ((hbe i hi).trans (hle (n - 1 - i) (by omega)).symm)⟩

/-- Settles O41: the bytes are mirrored, and each pair of twins is one write or one read in the two orders. -/
theorem byteOrdersMirrorEachOther : Obligations.ByteOrdersMirrorEachOther := by
  unfold Obligations.ByteOrdersMirrorEachOther
  intro s n
  simp only [List.forall_mem_cons, List.not_mem_nil, false_imp_iff, implies_true, and_true, exec_wrbe, exec_wrle,
    exec_wrbemu, exec_wrlemu, exec_wrbems, exec_wrlems, exec_rdbeu, exec_rdleu, exec_rdbes, exec_rdles]
  exact ⟨finish_mwWrite_mirrored s.a, twins_same_st_off (finish_mwWrite_movesCursor n s.a s),
    twins_same_st_off (finish_mwWrite_movesCursor (minimalLen s.a) s.a s),
    twins_same_st_off (finish_mwWrite_movesCursor (minimalLenSigned s.a) s.a s),
    twins_same_st_off (finish_mwRead_movesCursor n false s), twins_same_st_off (finish_mwRead_movesCursor n true s)⟩

/-! ### Lengths and writes agree -/

/-- A write of a legal length n reports at most n, and where it fits it completes, reports n and moves OFF by n
(41_minwidth.md R136). -/
theorem write_agrees_with_length {i : Instr} {s t : State} {n : Nat} {v : Word} {order : ByteOrder}
    (hi : exec i s = finish (mwWrite n v order s) s) (h1 : 1 ≤ n) (h8 : n ≤ 8) (ht : t.r0.toNat = n) :
    ∃ u, exec i s = .next u ∧ u.r0.toNat ≤ t.r0.toNat ∧ u.nb.toNat ≤ t.r0.toNat ∧
      (Fits s n → u.err = 0 ∧ u.r0 = t.r0 ∧ u.nb.toNat = t.r0.toNat ∧ u.off.toNat = s.off.toNat + t.r0.toNat) := by
  by_cases hfit : Fits s n
  · obtain ⟨u, hu, -, hoff, ⟨hr0, -⟩, hst, -⟩ := finish_mwWrite_stored v order h1 h8 hfit
    have hnb := hst.nb_toNat (by omega) (by omega)
    have hr0' : u.r0 = t.r0 := BitVec.eq_of_toNat_eq (hr0.trans ht.symm)
    have herr : u.err = 0 := BitVec.eq_of_toNat_eq (hst.err_toNat (by omega))
    exact ⟨u, hi.trans hu, by omega, by omega, fun _ => ⟨herr, hr0', by omega, by omega⟩⟩
  · obtain ⟨u, hu, -, -, ⟨hr0, -⟩, hst⟩ := finish_mwWrite_insufficientBuffer v order h1 h8 hfit
    have hnb := hst.nb_toNat (by omega) (by omega)
    exact ⟨u, hi.trans hu, by omega, by omega, fun h => absurd h hfit⟩

/-- Settles O39: both lengths are legal, so `write_agrees_with_length` applies to the writes in either order. -/
theorem lengthCommandsAgreeWithWrites : Obligations.LengthCommandsAgreeWithWrites := by
  unfold Obligations.LengthCommandsAgreeWithWrites
  intro s
  simp only [List.forall_mem_cons, List.not_mem_nil, false_imp_iff, implies_true, and_true]
  constructor
  · obtain ⟨h1, h8, -⟩ := minimalLen_isMinimalUnsigned s.a
    obtain ⟨t, ht, -, -, ⟨hr0, -⟩, -⟩ := finish_length_completesWith h8 s
    exact ⟨t, ht, hr0, write_agrees_with_length (exec_wrbemu s) h1 h8 hr0,
      write_agrees_with_length (exec_wrlemu s) h1 h8 hr0⟩
  · obtain ⟨h1, h8, -⟩ := minimalLenSigned_isMinimalSigned s.a
    obtain ⟨t, ht, -, -, ⟨hr0, -⟩, -⟩ := finish_length_completesWith h8 s
    exact ⟨t, ht, hr0, write_agrees_with_length (exec_wrbems s) h1 h8 hr0,
      write_agrees_with_length (exec_wrlems s) h1 h8 hr0⟩

/-! ### Reading a write back -/

section ReadBack

variable {s : State} {o n v : Nat}

/-- The big-endian value of the first k of n bytes is the top k bytes of the low n of v. -/
theorem State.beValue_of_bytes (h : ∀ i, i < n → (s.byteAt (o + i)).toNat = v / 256 ^ (n - 1 - i) % 256) {k : Nat}
    (hk : k ≤ n) : s.beValue o k = v / 256 ^ (n - k) % 256 ^ k := by
  induction k with
  | zero => rw [State.beValue, Nat.pow_zero, Nat.mod_one]
  | succ k ih =>
    have hpow : 256 ^ (n - k) = 256 ^ (n - (k + 1)) * 256 := by
      rw [← Nat.pow_succ, show (n - (k + 1)).succ = n - k by omega]
    rw [State.beValue, ih (by omega), h k (by omega), hpow, ← Nat.div_div_eq_div_mul,
      show n - 1 - k = n - (k + 1) by omega, Nat.pow_succ' (n := k), Nat.mod_mul, Nat.add_comm]

/-- The little-endian value of n bytes is the low n bytes of v. -/
theorem State.leValue_of_bytes (h : ∀ i, i < n → (s.byteAt (o + i)).toNat = v / 256 ^ i % 256) :
    s.leValue o n = v % 256 ^ n := by
  induction n with
  | zero => rw [State.leValue, Nat.pow_zero, Nat.mod_one]
  | succ n ih =>
    rw [State.leValue_succ, ih fun i hi => h i (by omega), h n (by omega), Nat.mod_pow_succ, Nat.pow_mul, Nat.mul_comm]

/-- Bytes that hold the low n bytes of v in an order have them as their value in that order (20_memory.md R58). -/
theorem State.fieldValue_of_bytes {order : ByteOrder}
    (h : ∀ i, i < n → (s.byteAt (o + i)).toNat = v / 256 ^ byteIndex order n i % 256) :
    s.fieldValue order o n = v % 2 ^ (8 * n) := by
  rw [Nat.pow_mul]
  cases order with
  | be =>
    have hvalue := State.beValue_of_bytes h (Nat.le_refl n)
    rwa [Nat.sub_self, Nat.pow_zero, Nat.div_one] at hvalue
  | le => exact State.leValue_of_bytes h

end ReadBack

/-- A number that its minimal unsigned length holds is read back from its low bytes (41_minwidth.md R120). -/
theorem IsMinimalUnsigned.readValue_mod {v n : Nat} (h : IsMinimalUnsigned v n) :
    readValue false n (v % 2 ^ (8 * n)) = v := by
  obtain ⟨-, -, hlt, -⟩ := h
  exact Nat.mod_eq_of_lt hlt

/-- Cutting 2^64 - 2^k + w, whose bits from k up are ones, to its low k bits gives w. -/
theorem ones_above_mod {k w : Nat} (hk : k ≤ 64) (hw : w < 2 ^ k) : (w + (2 ^ 64 - 2 ^ k)) % 2 ^ k = w := by
  obtain ⟨c, hc⟩ := Nat.dvd_sub (Nat.pow_dvd_pow 2 hk) (Nat.dvd_refl (2 ^ k))
  rw [hc, Nat.add_mul_mod_self_left, Nat.mod_eq_of_lt hw]

/-- A number that its minimal signed length holds is read back from its low bytes, sign-extended: a number from 0 up has
bit 8n - 1 clear, and a negative one has all bits from 8n - 1 up set (41_minwidth.md R121, R123). -/
theorem IsMinimalSigned.readValue_mod {v : Word} {n : Nat} (h : IsMinimalSigned v.toInt n) :
    readValue true n (v.toNat % 2 ^ (8 * n)) = v.toNat := by
  obtain ⟨h1, h8, ⟨hlow, hhigh⟩, -⟩ := h
  have hv := v.isLt
  have hcast : ((2 ^ (8 * n - 1) : Nat) : Int) = (2 : Int) ^ (8 * n - 1) := by push_cast; rfl
  have hdouble : 2 ^ (8 * n) = 2 * 2 ^ (8 * n - 1) := by rw [← Nat.pow_succ', show (8 * n - 1).succ = 8 * n by omega]
  have hle : 2 ^ (8 * n) ≤ 2 ^ 64 := Nat.pow_le_pow_right (by decide) (by omega)
  rw [BitVec.toInt_eq_toNat_cond, ← hcast] at hlow hhigh
  rw [readValue, signExtendedValue]
  by_cases hsign : 2 * v.toNat < 2 ^ 64
  · rw [if_pos hsign] at hhigh
    have hlt : v.toNat < 2 ^ (8 * n - 1) := Int.ofNat_lt.1 hhigh
    rw [Nat.mod_eq_of_lt (by omega), if_neg (by omega)]
  · rw [if_neg hsign] at hlow
    have hge : 2 ^ 64 ≤ v.toNat + 2 ^ (8 * n - 1) := by omega
    obtain ⟨w, hw⟩ : ∃ w, v.toNat = w + (2 ^ 64 - 2 ^ (8 * n)) := ⟨_, (Nat.sub_add_cancel (by omega)).symm⟩
    rw [hw, ones_above_mod (by omega) (by omega), if_pos ⟨h1, by omega⟩]

/-- A write, OFF put back, and a read of as many bytes in the same order give A back, where the read's value of the low
bytes of A is A (41_minwidth.md R137). -/
theorem write_then_read {n : Nat} (signed : Bool) (order : ByteOrder) {s : State} (h1 : 1 ≤ n) (h8 : n ≤ 8)
    (hfit : Fits s n) (hvalue : readValue signed n (s.a.toNat % 2 ^ (8 * n)) = s.a.toNat) :
    ∃ t u, finish (mwWrite n s.a order s) s = .next t ∧
      finish (mwRead t.r0.toNat signed order (t.withOff s.off)) (t.withOff s.off) = .next u ∧
      u.err = 0 ∧ u.r0 = s.a := by
  obtain ⟨t, hwrite, ⟨-, -, -, -, hcap, -⟩, -, ⟨hr0, -⟩, -, hbytes, -⟩ := finish_mwWrite_stored s.a order h1 h8 hfit
  have hback : Fits (t.withOff s.off) n := by
    unfold Fits
    rw [State.withOff_cap, State.withOff_off, hcap]
    exact hfit
  obtain ⟨u, hread, -, -, -, ⟨hu0, -⟩, hst⟩ := finish_mwRead_readValue signed order h8 hback
  have hfield : (t.withOff s.off).fieldValue order s.off.toNat n = s.a.toNat % 2 ^ (8 * n) :=
    State.fieldValue_of_bytes hbytes
  rw [State.withOff_off, hfield, hvalue] at hu0
  exact ⟨t, u, hwrite, hr0.symm ▸ hread, BitVec.eq_of_toNat_eq (hst.err_toNat (by decide)), BitVec.eq_of_toNat_eq hu0⟩

/-- Settles O40. -/
theorem minimalWritesReadBack : Obligations.MinimalWritesReadBack := by
  unfold Obligations.MinimalWritesReadBack
  intro s
  have hsigned := minimalLenSigned_isMinimalSigned s.a
  have hunsigned := minimalLen_isMinimalUnsigned s.a
  have ⟨hs1, hs8, _⟩ := hsigned
  have ⟨hu1, hu8, _⟩ := hunsigned
  exact ⟨fun hfit => ⟨write_then_read true .be hs1 hs8 hfit hsigned.readValue_mod,
      write_then_read true .le hs1 hs8 hfit hsigned.readValue_mod⟩,
    fun hfit => ⟨write_then_read false .be hu1 hu8 hfit hunsigned.readValue_mod,
      write_then_read false .le hu1 hu8 hfit hunsigned.readValue_mod⟩⟩

end Sys2Proof.Machine
end

section
/-!
The LEB128 codec (42_leb128.md): the smallest number of seven-bit groups, the write of the groups under their
continuation bits and the read up to the first byte whose bit 7 is clear, with their errors; a write read back gives A,
and no read that gives A consumes fewer bytes.
-/

namespace Sys2Proof.Machine

/-! ### What the LEB128 commands run -/

theorem exec_leblen (s : State) : exec .leblen s = finish (lengthResult (lebLen s.a)) s := rfl
theorem exec_lebwr (s : State) : exec .lebwr s = finish (lebWrite s.a s) s := rfl
theorem exec_lebrd (s : State) : exec .lebrd s = finish (lebReadFrom s 8 0 0) s := rfl

/-! ### The length -/

/-- Eight groups of seven bits hold 56 bits (42_leb128.md R161). -/
theorem IsVarintLength.lt_two_pow {v n : Nat} (h : IsVarintLength v n) : v < 2 ^ 56 := by
  obtain ⟨-, h8, hlt, -⟩ := h
  exact Nat.lt_of_lt_of_le hlt (Nat.pow_le_pow_right (by decide) (by omega))

/-- A value's varint length is the one the model computes (42_leb128.md R161). -/
theorem IsVarintLength.lebLen_eq {x : Word} {n : Nat} (h : IsVarintLength x.toNat n) : lebLen x = .ok n := by
  obtain ⟨m, hm, hmv⟩ := lebLen_of_lt x h.lt_two_pow
  rw [hm, hmv.unique h]

/-- A length command below 2^56 completes with the varint length in R0 (42_leb128.md R163). -/
theorem finish_lengthResult_completesWith {x : Word} {n : Nat} (hn : IsVarintLength x.toNat n) (s : State) :
    ∃ t, finish (lengthResult (lebLen x)) s = .next t ∧ CompletesWith s t n 0 0 0 := by
  have ⟨_, h8, _⟩ := hn
  rw [hn.lebLen_eq]
  exact finish_length_completesWith h8 s

/-- A length command from 2^56 on ends in InvalidLength (42_leb128.md R163). -/
theorem finish_lengthResult_invalidLength {x : Word} (hx : 2 ^ 56 ≤ x.toNat) (s : State) :
    ∃ t, finish (lengthResult (lebLen x)) s = .next t ∧ EndsInError s t 2 :=
  ⟨_, by rw [lebLen_of_ge x hx]; rfl, errorCommit_endsInError .invalidLength s⟩

/-- Settles O43: both sides of 2^56, as `leb_len` decides them. -/
theorem leblenGivesGroupCount : Obligations.LeblenGivesGroupCount := by
  unfold Obligations.LeblenGivesGroupCount
  refine ⟨by decide, fun s => ⟨fun hlt => ?_, fun hge => ?_⟩⟩
  · obtain ⟨n, -, hn⟩ := lebLen_of_lt s.a hlt
    obtain ⟨t, ht, hdone⟩ := finish_lengthResult_completesWith hn s
    exact ⟨t, n, (exec_leblen s).trans ht, hn, hdone⟩
  · rw [exec_leblen]
    exact finish_lengthResult_invalidLength hge s

/-! ### The write -/

/-- A LEB128 write that fits stores the groups of x, a continuation bit in all but the last (42_leb128.md R160,
R164). -/
theorem finish_lebWrite_stored {x : Word} {s : State} {n : Nat} (hn : IsVarintLength x.toNat n) (hfit : Fits s n) :
    ∃ t, finish (lebWrite x s) s = .next t ∧
      Stored s t n fun i => x.toNat / 128 ^ i % 128 + (if i + 1 < n then 128 else 0) := by
  have ⟨_, h8, _⟩ := hn
  refine ⟨_, by rw [lebWrite_ok x s n hn hn.lt_two_pow hfit, finish_ok],
    successCommit_stored s n _ _ (lebBytes_length x n) h8 hfit fun i hi => ?_⟩
  simp only [lebBytes_getElem, lebByte_toNat, Nat.pow_mul, Nat.lt_sub_iff_add_lt, Nat.reducePow]

/-- A LEB128 write that does not fit ends in InsufficientBuffer (42_leb128.md R164). -/
theorem finish_lebWrite_insufficientBuffer {x : Word} {s : State} {n : Nat} (hn : IsVarintLength x.toNat n)
    (hfit : ¬ Fits s n) : ∃ t, finish (lebWrite x s) s = .next t ∧ EndsInError s t 1 :=
  ⟨_, by rw [lebWrite_insufficientBuffer x s n hn hn.lt_two_pow hfit, finish_error],
    errorCommit_endsInError .insufficientBuffer s⟩

/-- A LEB128 write of 2^56 or more ends in InvalidLength, whatever the room (42_leb128.md R164). -/
theorem finish_lebWrite_invalidLength {x : Word} (hx : 2 ^ 56 ≤ x.toNat) (s : State) :
    ∃ t, finish (lebWrite x s) s = .next t ∧ EndsInError s t 2 :=
  ⟨_, by rw [lebWrite_invalidLength x s hx, finish_error], errorCommit_endsInError .invalidLength s⟩

/-- Settles O44: the write's three endings, where a varint length exists only below 2^56. -/
theorem lebwrStoresGroups : Obligations.LebwrStoresGroups := by
  unfold Obligations.LebwrStoresGroups
  refine ⟨by decide, fun s => ?_⟩
  rw [exec_lebwr]
  exact ⟨fun n hn => ⟨finish_lebWrite_stored hn, finish_lebWrite_insufficientBuffer hn⟩,
    fun hge => finish_lebWrite_invalidLength hge s⟩

/-! ### The read -/

section Read

variable {s : State} {k : Nat}

/-- A read whose first byte with bit 7 clear is byte k consumes k + 1 bytes with the value of their groups
(42_leb128.md R165). -/
theorem exec_lebrd_consumed (hk : k < 8) (hfit : Fits s (k + 1))
    (hset : ∀ j, j < k → 128 ≤ (s.byteAt (s.off.toNat + j)).toNat) (hclear : (s.byteAt (s.off.toNat + k)).toNat < 128) :
    ∃ t, exec .lebrd s = .next t ∧ Consumed s t (k + 1) (s.lebValue s.off.toNat (k + 1)) := by
  obtain ⟨y, hread, hvalue⟩ := lebReadFrom_ok s 8 0 0 k hk (Nat.le_refl 8) (by decide) (by rwa [Nat.zero_add])
    (by simpa only [Nat.zero_add] using hset) (by rwa [Nat.zero_add])
  have hy : y.toNat = s.lebValue s.off.toNat (k + 1) := by simpa using hvalue
  rw [Nat.zero_add] at hread
  exact ⟨_, by rw [exec_lebrd, hread, finish_ok], hy ▸ successCommit_consumed s (k + 1) y (by omega) hfit⟩

/-- A read whose bytes run out before one with bit 7 clear ends in InsufficientBuffer (42_leb128.md R165). -/
theorem exec_lebrd_insufficientBuffer (hk : k < 8) (hfit : ¬ Fits s (k + 1))
    (hset : ∀ j, j < k → 128 ≤ (s.byteAt (s.off.toNat + j)).toNat) :
    ∃ t, exec .lebrd s = .next t ∧ EndsInError s t 1 := by
  have hread := lebReadFrom_insufficientBuffer s 8 0 0 k hk (by rwa [Nat.zero_add])
    (by simpa only [Nat.zero_add] using hset)
  exact ⟨_, by rw [exec_lebrd, hread, finish_error], errorCommit_endsInError .insufficientBuffer s⟩

/-- Eight bytes with bit 7 set end in InvalidLength (42_leb128.md R165). -/
theorem exec_lebrd_invalidLength (hfit : Fits s 8) (hset : ∀ j, j < 8 → 128 ≤ (s.byteAt (s.off.toNat + j)).toNat) :
    ∃ t, exec .lebrd s = .next t ∧ EndsInError s t 2 := by
  have hread := lebReadFrom_invalidLength s 8 0 0 hfit (by simpa only [Nat.zero_add] using hset)
  exact ⟨_, by rw [exec_lebrd, hread, finish_error], errorCommit_endsInError .invalidLength s⟩

end Read

/-- The three endings of LEBRD cover every state: let k be the first of eight bytes with bit 7 clear, or 7 where all have
it set, and ask whether the bytes exist (42_leb128.md R165). -/
theorem exec_lebrd_cases (s : State) : ∃ t, exec .lebrd s = .next t ∧
    ((∃ k, Consumed s t (k + 1) (s.lebValue s.off.toNat (k + 1))) ∨ EndsInError s t 1 ∨ EndsInError s t 2) := by
  by_cases hclear : ∃ k, (s.byteAt (s.off.toNat + k)).toNat < 128 ∧ k < 8
  · obtain ⟨k, ⟨hkclear, hk⟩, hleast⟩ := Nat.findX hclear
    have hset : ∀ j, j < k → 128 ≤ (s.byteAt (s.off.toNat + j)).toNat := fun j hj =>
      Nat.le_of_not_lt fun hlt => hleast j hj ⟨hlt, by omega⟩
    by_cases hfit : Fits s (k + 1)
    · obtain ⟨t, ht, hread⟩ := exec_lebrd_consumed hk hfit hset hkclear
      exact ⟨t, ht, .inl ⟨k, hread⟩⟩
    · obtain ⟨t, ht, herr⟩ := exec_lebrd_insufficientBuffer hk hfit hset
      exact ⟨t, ht, .inr (.inl herr)⟩
  · have hset : ∀ j, j < 8 → 128 ≤ (s.byteAt (s.off.toNat + j)).toNat := fun j hj =>
      Nat.le_of_not_lt fun hlt => hclear ⟨j, hlt, hj⟩
    by_cases hfit : Fits s 8
    · obtain ⟨t, ht, herr⟩ := exec_lebrd_invalidLength hfit hset
      exact ⟨t, ht, .inr (.inr herr)⟩
    · obtain ⟨t, ht, herr⟩ := exec_lebrd_insufficientBuffer (by decide : 7 < 8) hfit fun j hj => hset j (by omega)
      exact ⟨t, ht, .inr (.inl herr)⟩

/-- Settles O45: the read's three endings. -/
theorem lebrdReadsGroups : Obligations.LebrdReadsGroups := by
  unfold Obligations.LebrdReadsGroups
  exact ⟨by decide, fun _ => ⟨fun _ => exec_lebrd_consumed, fun _ => exec_lebrd_insufficientBuffer,
    exec_lebrd_invalidLength⟩⟩

/-! ### The value of the groups -/

/-- n groups hold a value below 2^(7n). -/
theorem State.lebValue_lt (s : State) (o n : Nat) : s.lebValue o n < 2 ^ (7 * n) := by
  induction n generalizing o with
  | zero => simp [State.lebValue]
  | succ n ih =>
    have hrest := ih (o + 1)
    rw [State.lebValue, Nat.mul_add, Nat.pow_add]
    omega

/-- Bytes whose groups are the low n groups of v have these as their value (42_leb128.md R160). -/
theorem State.lebValue_of_groups {s : State} {o n v : Nat}
    (h : ∀ i, i < n → (s.byteAt (o + i)).toNat % 128 = v / 128 ^ i % 128) : s.lebValue o n = v % 128 ^ n := by
  induction n generalizing o v with
  | zero => rw [State.lebValue, Nat.pow_zero, Nat.mod_one]
  | succ n ih =>
    have hfirst : (s.byteAt o).toNat % 128 = v % 128 := by simpa using h 0 (by omega)
    have hrest : s.lebValue (o + 1) n = v / 128 % 128 ^ n := ih fun i hi => by
      rw [Nat.div_div_eq_div_mul, ← Nat.pow_succ', ← h (i + 1) (by omega), show o + 1 + i = o + (i + 1) by omega]
    rw [State.lebValue, hfirst, hrest, Nat.pow_succ', Nat.mod_mul]

/-! ### Round trip and minimality -/

/-- A command that ended in error reports it (60_exceptions.md R204). -/
theorem EndsInError.err_ne_zero {s t : State} {e : Nat} (h : EndsInError s t e) (h1 : 1 ≤ e) (he : e < 16) :
    t.err ≠ 0 := by
  obtain ⟨-, -, -, hst⟩ := h
  intro hzero
  have hnone : t.err.toNat = 0 := congrArg BitVec.toNat hzero
  have hcode := hst.err_toNat he
  omega

/-- A LEBRD without error has consumed at least as many bytes as its value's varint length: fewer groups do not hold the
value (42_leb128.md R161, R166). -/
theorem lebrd_consumes_at_least_length {s t : State} {n : Nat} (h : exec .lebrd s = .next t) (herr : t.err = 0)
    (hn : IsVarintLength t.r0.toNat n) : n ≤ t.r1.toNat := by
  obtain ⟨u, hu, hends⟩ := exec_lebrd_cases s
  obtain rfl : t = u := by rw [h] at hu; injection hu
  rcases hends with ⟨k, -, -, -, ⟨hr0, hr1, -⟩, -⟩ | hend | hend
  · obtain ⟨-, -, -, hmin⟩ := hn
    have hlt := s.lebValue_lt s.off.toNat (k + 1)
    by_contra hless
    have hge := hmin (k + 1) (by omega) (by omega)
    omega
  · exact absurd herr (hend.err_ne_zero (by decide) (by decide))
  · exact absurd herr (hend.err_ne_zero (by decide) (by decide))

/-- Putting OFF back after a command gives the room it had (20_memory.md R54). -/
theorem SameHostSide.fits_withOff {s t : State} {n : Nat} (h : SameHostSide s t) (hfit : Fits s n) :
    Fits (t.withOff s.off) n := by
  obtain ⟨-, -, -, -, hcap, -⟩ := h
  unfold Fits
  rw [State.withOff_cap, State.withOff_off, hcap]
  exact hfit

/-- LEBRD over the bytes a LEB128 write of x stored consumes all n of them with value x: bit 7 is set before the last byte
and clear in it (42_leb128.md R166). -/
theorem Stored.lebrd_consumed {x : Word} {s t : State} {n : Nat} (hn : IsVarintLength x.toNat n) (hfit : Fits s n)
    (h : Stored s t n fun i => x.toNat / 128 ^ i % 128 + (if i + 1 < n then 128 else 0)) :
    ∃ u, exec .lebrd (t.withOff s.off) = .next u ∧ Consumed (t.withOff s.off) u n x.toNat := by
  obtain ⟨hhost, -, -, -, hbytes, -⟩ := h
  obtain ⟨h1, h8, hlt, -⟩ := hn
  obtain ⟨k, rfl⟩ : ∃ k, n = k + 1 := ⟨n - 1, by omega⟩
  have hbyte : ∀ i, i < k + 1 → ((t.withOff s.off).byteAt (s.off.toNat + i)).toNat =
    x.toNat / 128 ^ i % 128 + if i + 1 < k + 1 then 128 else 0 := hbytes
  have hset : ∀ j, j < k → 128 ≤ ((t.withOff s.off).byteAt (s.off.toNat + j)).toNat := fun j hj => by
    rw [hbyte j (by omega), if_pos (by omega)]
    exact Nat.le_add_left 128 _
  have hclear : ((t.withOff s.off).byteAt (s.off.toNat + k)).toNat < 128 := by
    rw [hbyte k (by omega), if_neg (Nat.lt_irrefl _)]
    exact Nat.mod_lt _ (by decide)
  have hgroup : ∀ i, i < k + 1 →
      ((t.withOff s.off).byteAt (s.off.toNat + i)).toNat % 128 = x.toNat / 128 ^ i % 128 := fun i hi => by
    rw [hbyte i hi]
    split <;> omega
  have hvalue : (t.withOff s.off).lebValue s.off.toNat (k + 1) = x.toNat := by
    rw [State.lebValue_of_groups hgroup, Nat.mod_eq_of_lt (by rwa [Nat.pow_mul] at hlt)]
  obtain ⟨u, hread, hdone⟩ := exec_lebrd_consumed (by omega) (hhost.fits_withOff hfit) hset hclear
  rw [State.withOff_off, hvalue] at hdone
  exact ⟨u, hread, hdone⟩

/-- Settles O46: the read consumes what the write stored, and minimality is `lebrd_consumes_at_least_length`. -/
theorem leb128RoundTripIsMinimal : Obligations.Leb128RoundTripIsMinimal := by
  unfold Obligations.Leb128RoundTripIsMinimal
  intro s n hn hfit
  obtain ⟨t, hwrite, hstored⟩ := finish_lebWrite_stored hn hfit
  obtain ⟨u, hread, -, -, -, ⟨hu0, hu1, -⟩, hust⟩ := hstored.lebrd_consumed hn hfit
  obtain ⟨-, -, ⟨ht0, -⟩, htst, -⟩ := hstored
  obtain ⟨v, hlen, hdone⟩ := finish_lengthResult_completesWith hn s
  have ⟨_, _, ⟨hv0, _⟩, _⟩ := hdone
  refine ⟨t, u, v, hwrite, hread, hlen, BitVec.eq_of_toNat_eq (htst.err_toNat (by decide)),
    BitVec.eq_of_toNat_eq (hust.err_toNat (by decide)), hdone.err_eq_zero, BitVec.eq_of_toNat_eq hu0,
    BitVec.eq_of_toNat_eq (hu1.trans ht0.symm), BitVec.eq_of_toNat_eq (ht0.trans hv0.symm), fun x y hxy herr hy0 => ?_⟩
  rw [ht0]
  exact lebrd_consumes_at_least_length hxy herr (hy0.symm ▸ hn)

end Sys2Proof.Machine
end

section
/-!
The VLU codec (43_vlu.md): the length, which is LEB128's; the write of the word that keeps its own length in the ones that
end its first byte; the read that takes the length from there, with their errors; and a write read back gives A, over as
many bytes as LEB128 needs.
-/

namespace Sys2Proof.Machine

/-! ### What the VLU commands run -/

theorem exec_vlulen (s : State) : exec .vlulen s = finish (lengthResult (vluLen s.a)) s := rfl
theorem exec_vluwr (s : State) : exec .vluwr s = finish (vluWrite s.a s) s := rfl
theorem exec_vlurd (s : State) : exec .vlurd s = finish (vluRead s) s := rfl

/-- The VLU length is the LEB128 length (43_vlu.md R181). -/
theorem vluLen_eq_lebLen (x : Word) : vluLen x = lebLen x := rfl

/-! ### The length -/

/-- VLULEN is LEBLEN under another operation code (43_vlu.md R181, R183). -/
theorem exec_vlulen_eq_leblen (s : State) : exec .vlulen s = exec .leblen s := by
  rw [exec_vlulen, exec_leblen, vluLen_eq_lebLen]

/-- Settles O47: the two sides of 2^56 are those of LEBLEN. -/
theorem vlulenGivesGroupCount : Obligations.VlulenGivesGroupCount := by
  unfold Obligations.VlulenGivesGroupCount
  refine ⟨by decide, fun s => ?_⟩
  obtain ⟨-, hleb⟩ := leblenGivesGroupCount
  rw [exec_vlulen_eq_leblen]
  exact hleb s

/-! ### The word as a number -/

/-- The number a VLU encoding of v in n bytes stands for: v above bit n - 1, and below it the run of n - 1 ones under a zero
(43_vlu.md R180). -/
def vluNumber (v n : Nat) : Nat := v * 2 ^ n + (2 ^ (n - 1) - 1)

/-- The run of n - 1 ones lies below bit n (43_vlu.md R180). -/
theorem vluRun_lt (n : Nat) : 2 ^ (n - 1) - 1 < 2 ^ n := by
  have hle : 2 ^ (n - 1) ≤ 2 ^ n := Nat.pow_le_pow_right (by decide) (Nat.sub_le n 1)
  have hpos := Nat.two_pow_pos n
  omega

/-- The low n bits of the number are the run. -/
theorem vluNumber_mod (v n : Nat) : vluNumber v n % 2 ^ n = 2 ^ (n - 1) - 1 := by
  rw [vluNumber, Nat.mul_add_mod_self_right, Nat.mod_eq_of_lt (vluRun_lt n)]

/-- The bits above the low n of the number are the value. -/
theorem vluNumber_div (v n : Nat) : vluNumber v n / 2 ^ n = v := by
  rw [vluNumber, Nat.mul_comm, Nat.mul_add_div (Nat.two_pow_pos n), Nat.div_eq_of_lt (vluRun_lt n), Nat.add_zero]

/-- The number of a value of n seven-bit groups fits n bytes. -/
theorem vluNumber_lt {v n : Nat} (hv : v < 2 ^ (7 * n)) : vluNumber v n < 256 ^ n := by
  have hrun := vluRun_lt n
  calc vluNumber v n < (v + 1) * 2 ^ n := by rw [vluNumber, Nat.add_mul]; omega
    _ ≤ 2 ^ (7 * n) * 2 ^ n := Nat.mul_le_mul_right _ hv
    _ = 256 ^ n := by rw [← Nat.pow_add, show 7 * n + n = 8 * n by omega, Nat.pow_mul]

/-- The VLU word of a value with varint length n is that number (43_vlu.md R180). -/
theorem IsVarintLength.vluWord_toNat {x : Word} {n : Nat} (hn : IsVarintLength x.toNat n) :
    (vluWord x n).toNat = vluNumber x.toNat n := by
  obtain ⟨h1, h8, hlt, -⟩ := hn
  exact Machine.vluWord_toNat x n h1 h8 hlt

/-! ### The write -/

/-- A VLU write is the little-endian minimal-width write of the VLU word (43_vlu.md R184). -/
theorem vluWrite_eq_mwWrite {x : Word} {n : Nat} (hn : IsVarintLength x.toNat n) (s : State) :
    vluWrite x s = mwWrite n (vluWord x n) .le s := by
  unfold vluWrite
  rw [vluLen_eq_lebLen, hn.lebLen_eq]

/-- The two endings of a VLU write below 2^56: the bytes of the VLU word, or InsufficientBuffer (43_vlu.md R184). -/
theorem finish_vluWrite_endings {x : Word} {n : Nat} (hn : IsVarintLength x.toNat n) (s : State) :
    (Fits s n → ∃ t, finish (vluWrite x s) s = .next t ∧
      Stored s t n fun i => vluNumber x.toNat n / 256 ^ i % 256) ∧
    (¬ Fits s n → ∃ t, finish (vluWrite x s) s = .next t ∧ EndsInError s t 1) := by
  have ⟨h1, h8, _⟩ := hn
  rw [vluWrite_eq_mwWrite hn, ← hn.vluWord_toNat]
  exact finish_mwWrite_of_legal (vluWord x n) .le s h1 h8

/-- A VLU write of 2^56 or more ends in InvalidLength, whatever the room (43_vlu.md R184). -/
theorem finish_vluWrite_invalidLength {x : Word} (hx : 2 ^ 56 ≤ x.toNat) (s : State) :
    ∃ t, finish (vluWrite x s) s = .next t ∧ EndsInError s t 2 :=
  ⟨_, by rw [vluWrite_invalidLength x s hx, finish_error], errorCommit_endsInError .invalidLength s⟩

/-- Settles O48: the write's three endings, where a varint length exists only below 2^56. -/
theorem vluwrStoresLengthPrefixedWord : Obligations.VluwrStoresLengthPrefixedWord := by
  unfold Obligations.VluwrStoresLengthPrefixedWord
  refine ⟨by decide, fun s => ?_⟩
  rw [exec_vluwr]
  exact ⟨fun n hn => finish_vluWrite_endings hn s, fun hge => finish_vluWrite_invalidLength hge s⟩

/-! ### The read -/

section Read

variable {s : State} {k : Nat}

/-- A read whose first byte ends in k one bits and a zero bit consumes k + 1 bytes, with the value above the low k + 1
bits of their little-endian word (43_vlu.md R182, R185). -/
theorem exec_vlurd_consumed (hk : k < 8) (hfit : Fits s (k + 1))
    (hrun : (s.byteAt s.off.toNat).toNat % 2 ^ (k + 1) = 2 ^ k - 1) :
    ∃ t, exec .vlurd s = .next t ∧ Consumed s t (k + 1) (s.leValue s.off.toNat (k + 1) / 2 ^ (k + 1)) := by
  obtain rfl := (cto8_eq_iff _ k hk).2 hrun
  obtain ⟨y, hread, hvalue⟩ := vluRead_ok s hk hfit
  exact ⟨_, by rw [exec_vlurd, hread, finish_ok], hvalue ▸ successCommit_consumed s _ y (by omega) hfit⟩

/-- A read without a first byte ends in InsufficientBuffer (43_vlu.md R185). -/
theorem exec_vlurd_empty (hfit : ¬ Fits s 1) : ∃ t, exec .vlurd s = .next t ∧ EndsInError s t 1 :=
  ⟨_, by rw [exec_vlurd, vluRead_empty s hfit, finish_error], errorCommit_endsInError .insufficientBuffer s⟩

/-- A first byte 0xFF ends in InvalidLength (43_vlu.md R182, R185). -/
theorem exec_vlurd_invalidLength (hfit : Fits s 1) (hbyte : (s.byteAt s.off.toNat).toNat = 255) :
    ∃ t, exec .vlurd s = .next t ∧ EndsInError s t 2 := by
  have hff : s.byteAt s.off.toNat = 0xFF := BitVec.eq_of_toNat_eq hbyte
  exact ⟨_, by rw [exec_vlurd, vluRead_invalidLength s hfit hff, finish_error], errorCommit_endsInError .invalidLength s⟩

/-- A first byte that announces more bytes than remain ends in InsufficientBuffer (43_vlu.md R185). -/
theorem exec_vlurd_insufficientBuffer (hk : k < 8) (hfirst : Fits s 1) (hfit : ¬ Fits s (k + 1))
    (hrun : (s.byteAt s.off.toNat).toNat % 2 ^ (k + 1) = 2 ^ k - 1) :
    ∃ t, exec .vlurd s = .next t ∧ EndsInError s t 1 := by
  obtain rfl := (cto8_eq_iff _ k hk).2 hrun
  exact ⟨_, by rw [exec_vlurd, vluRead_insufficientBuffer s hfirst hk hfit, finish_error],
    errorCommit_endsInError .insufficientBuffer s⟩

end Read

/-- Settles O49: the read's four endings. -/
theorem vlurdReadsLengthPrefixedWord : Obligations.VlurdReadsLengthPrefixedWord := by
  unfold Obligations.VlurdReadsLengthPrefixedWord
  exact ⟨by decide, fun _ => ⟨fun _ => exec_vlurd_consumed, exec_vlurd_empty, exec_vlurd_invalidLength,
    fun _ => exec_vlurd_insufficientBuffer⟩⟩

/-! ### Round trip -/

/-- VLURD over the bytes a VLU write of x stored consumes all n of them with value x: the first byte ends in the run, which
gives the length back, and above the run the word is x (43_vlu.md R186). -/
theorem Stored.vlurd_consumed {x : Word} {s t : State} {n : Nat} (hn : IsVarintLength x.toNat n) (hfit : Fits s n)
    (h : Stored s t n fun i => vluNumber x.toNat n / 256 ^ i % 256) :
    ∃ u, exec .vlurd (t.withOff s.off) = .next u ∧ Consumed (t.withOff s.off) u n x.toNat := by
  obtain ⟨hhost, -, -, -, hbytes, -⟩ := h
  obtain ⟨h1, h8, hlt, -⟩ := hn
  obtain ⟨k, rfl⟩ : ∃ k, n = k + 1 := ⟨n - 1, by omega⟩
  have hbyte : ∀ i, i < k + 1 → ((t.withOff s.off).byteAt (s.off.toNat + i)).toNat =
    vluNumber x.toNat (k + 1) / 256 ^ i % 256 := hbytes
  have hrun : ((t.withOff s.off).byteAt s.off.toNat).toNat % 2 ^ (k + 1) = 2 ^ k - 1 := by
    have hfirst := hbyte 0 (by omega)
    rw [Nat.add_zero, Nat.pow_zero, Nat.div_one] at hfirst
    have hdvd : 2 ^ (k + 1) ∣ 256 := Nat.pow_dvd_pow 2 h8
    rw [hfirst, Nat.mod_mod_of_dvd _ hdvd, vluNumber_mod, Nat.add_sub_cancel]
  have hvalue : (t.withOff s.off).leValue s.off.toNat (k + 1) / 2 ^ (k + 1) = x.toNat := by
    rw [State.leValue_of_bytes hbyte, Nat.mod_eq_of_lt (vluNumber_lt hlt), vluNumber_div]
  obtain ⟨u, hread, hdone⟩ := exec_vlurd_consumed (by omega) (hhost.fits_withOff hfit) hrun
  rw [State.withOff_off, hvalue] at hdone
  exact ⟨u, hread, hdone⟩

/-- Settles O50: the read consumes what the write stored, and both writes of A move the cursor over n bytes. -/
theorem vluRoundTripAgreesWithLeb128 : Obligations.VluRoundTripAgreesWithLeb128 := by
  unfold Obligations.VluRoundTripAgreesWithLeb128
  intro s n hn hfit
  have ⟨_, h8, _⟩ := hn
  obtain ⟨hwrites, -⟩ := finish_vluWrite_endings hn s
  obtain ⟨t, hwrite, hstored⟩ := hwrites hfit
  obtain ⟨u, hread, -, -, -, ⟨hu0, hu1, -⟩, hust⟩ := hstored.vlurd_consumed hn hfit
  obtain ⟨v, hlen, hdone⟩ := finish_lengthResult_completesWith hn s
  have ⟨_, _, ⟨hv0, _⟩, _⟩ := hdone
  obtain ⟨x, hleb, hlebStored⟩ := finish_lebWrite_stored hn hfit
  have ⟨_, hoff⟩ := hstored.movesCursor.st_eq_off_eq hlebStored.movesCursor
  obtain ⟨-, -, ⟨ht0, -⟩, htst, -⟩ := hstored
  obtain ⟨-, -, -, hxst, -⟩ := hlebStored
  exact ⟨t, u, v, x, hwrite, hread, hlen, hleb, BitVec.eq_of_toNat_eq (htst.err_toNat (by decide)),
    BitVec.eq_of_toNat_eq (hust.err_toNat (by decide)), hdone.err_eq_zero,
    BitVec.eq_of_toNat_eq (hxst.err_toNat (by decide)), BitVec.eq_of_toNat_eq hu0,
    BitVec.eq_of_toNat_eq (hu1.trans ht0.symm), BitVec.eq_of_toNat_eq (ht0.trans hv0.symm),
    BitVec.eq_of_toNat_eq ((htst.nb_toNat (by decide) (by omega)).trans
      (hxst.nb_toNat (by decide) (by omega)).symm), hoff⟩

end Sys2Proof.Machine
end

section
/-!
Errors (60_exceptions.md): how an issued word ends, that no step produces UnsupportedForm, what the error commit leaves,
and that a command's outcome depends only on the operands, the cursor and the bytes of BUF.
-/

namespace Sys2Proof.Machine

/-! ### The two ways an issued word ends -/

/-- ST.ERR after a success commit, as a number (60_exceptions.md R201). -/
theorem successCommit_st_mod (g : Staged) (s : State) : (successCommit g s).st.toNat % 16 = 0 := by
  rw [successCommit_st, packStatus_toNat, Nat.add_mul_mod_self_left]
  rfl

/-- ST.ERR after an error commit, as a number (60_exceptions.md R201). -/
theorem errorCommit_st_mod (e : ErrorKind) (s : State) : (errorCommit e s).st.toNat % 16 = e.code.toNat := by
  rw [errorCommit_st, packStatus_toNat, Nat.add_mul_mod_self_left]
  exact Nat.mod_eq_of_lt e.code.isLt

/-- An issued word ends in a success commit of a command, or in the error commit of exactly one kind; the kind is
IllegalCommand for the words that do not decode and one that commands raise for the others (60_exceptions.md R200,
30_encoding.md R87). -/
theorem issueCommand_endings (w : CmdWord) (s : State) :
    (∃ g, (∃ i, decode w = .ok i) ∧ issueCommand w s = .next (successCommit g (s.withCmd w))) ∨
      ∃ e, ((∃ i, decode w = .ok i) ∧ RaisedByCommand e ∨ (¬ ∃ i, decode w = .ok i) ∧ e = .illegalCommand) ∧
        issueCommand w s = .next (errorCommit e (s.withCmd w)) := by
  rcases issueCommand_cases w s with ⟨i, hi, hrun⟩ | ⟨d, hd, herr⟩
  · rcases exec_cases i (s.withCmd w) with ⟨g, -, ht⟩ | ⟨e, he, ht⟩
    · exact .inl ⟨g, ⟨i, hi⟩, hrun.trans ht⟩
    · exact .inr ⟨e, .inl ⟨⟨i, hi⟩, he⟩, hrun.trans ht⟩
  · exact .inr ⟨_, .inr ⟨by simp [hd], rfl⟩, herr⟩

/-- The codes of the kinds a decoded command raises (60_exceptions.md R201). -/
theorem RaisedByCommand.code_toNat {e : ErrorKind} (he : RaisedByCommand e) :
    e.code.toNat = 1 ∨ e.code.toNat = 2 ∨ e.code.toNat = 4 := by
  rcases he with rfl | rfl | rfl <;> decide

/-- Settles O15: success shows 0, the kinds of a decoded command 1, 2 or 4, and 5 is left to the words that do not
decode, which are those outside the table (O3). -/
theorem everyWordEndsInSuccessOrOneError : Obligations.EveryWordEndsInSuccessOrOneError := by
  unfold Obligations.EveryWordEndsInSuccessOrOneError
  intro s w
  rw [← decodeAcceptsExactlyTableRows w]
  rcases issueCommand_endings w s with ⟨g, hi, ht⟩ | ⟨e, ⟨hi, he⟩ | ⟨hw, rfl⟩, ht⟩
  · refine ⟨_, ht, ?_⟩
    rw [successCommit_st_mod]
    simp [hi]
  · refine ⟨_, ht, ?_⟩
    rw [errorCommit_st_mod]
    rcases he.code_toNat with hcode | hcode | hcode <;> simp [hcode, hi]
  · refine ⟨_, ht, ?_⟩
    rw [errorCommit_st_mod]
    simp [ErrorKind.code, hw]

/-- Settles O17: a word that does not succeed ends in an error commit. -/
theorem errorLeavesOnlyItsStatus : Obligations.ErrorLeavesOnlyItsStatus := by
  unfold Obligations.ErrorLeavesOnlyItsStatus
  intro s w
  rcases issueCommand_endings w s with ⟨g, -, ht⟩ | ⟨e, -, ht⟩
  · exact ⟨_, ht, fun herr => absurd (successCommit_err g _) herr⟩
  · exact ⟨_, ht, fun _ => ⟨e, errorCommit_err e _, errorCommit_endsInError e _⟩⟩

/-! ### UnsupportedForm -/

/-- Code 3 is UnsupportedForm's alone (60_exceptions.md R201). -/
theorem code_eq_three_iff {e : ErrorKind} : e.code = 3 ↔ e = .unsupportedForm := by
  cases e <;> decide

/-- No kind of step makes ST.ERR show UnsupportedForm: it keeps ST, clears it, or packs the code of another ending
(60_exceptions.md R203). -/
theorem StepKind.err_ne_three {s t : State} (hk : StepKind s t) (hs : s.err ≠ 3) : t.err ≠ 3 := by
  cases hk with
  | same h | regA _ h | regB _ h | regC _ h | offset _ _ h | byte _ _ _ h => subst h; exact hs
  | reset h => subst h; rw [State.err, vnbReset_st]; decide
  | success w g _ h => subst h; rw [successCommit_err]; decide
  | error w e he h =>
    subst h
    rw [errorCommit_err]
    exact mt code_eq_three_iff.1 (ne_unsupportedForm_of_raised he)

/-- Settles O16: ST.ERR is 0 after reset, and each kind of step keeps it off 3. -/
theorem unsupportedFormNeverProduced : Obligations.UnsupportedFormNeverProduced := by
  unfold Obligations.UnsupportedFormNeverProduced
  refine ⟨rfl, by rw [State.err, State.reset_st]; decide, fun s t hs h => ?_⟩
  exact step_keeps (P := fun u => u.err ≠ 3) (fun _ _ _ herr => herr) (fun _ _ hk herr => hk.err_ne_three herr) h hs

/-! ### What a command's outcome depends on -/

/-- Two states agree on what a command can read: the operands, the cursor and the bytes of BUF (10_state.md R32). -/
structure SameInputs (s u : State) : Prop where
  a : u.a = s.a
  b : u.b = s.b
  c : u.c = s.c
  off : u.off = s.off
  cap : u.cap = s.cap
  byteAt : ∀ o, u.byteAt o = s.byteAt o

/-- Two states agree on what a command leaves: the results, the status, the offset and the bytes of BUF
(60_exceptions.md R208). -/
structure SameOutcome (t v : State) : Prop where
  r0 : v.r0 = t.r0
  r1 : v.r1 = t.r1
  r2 : v.r2 = t.r2
  r3 : v.r3 = t.r3
  st : v.st = t.st
  off : v.off = t.off
  byteAt : ∀ o, v.byteAt o = t.byteAt o

section SameInputs

variable {s u : State} (h : SameInputs s u)
include h

theorem SameInputs.checkCapacity_eq (n : Nat) : u.checkCapacity n = s.checkCapacity n := checkCapacity_congr h.off h.cap n

theorem SameInputs.gather_eq (order : ByteOrder) (n : Nat) : u.gather order n = s.gather order n := by
  simp only [State.gather, h.off, h.byteAt]

theorem SameInputs.vluTail_eq (len : Nat) : u.vluTail len = s.vluTail len := by
  simp only [State.vluTail, h.off, h.byteAt]

theorem SameInputs.mwWrite_eq (n : Nat) (v : Word) (order : ByteOrder) :
    mwWrite n v order u = mwWrite n v order s := by
  simp only [mwWrite, h.checkCapacity_eq]

theorem SameInputs.mwRead_eq (n : Nat) (signed : Bool) (order : ByteOrder) :
    mwRead n signed order u = mwRead n signed order s := by
  simp only [mwRead, h.checkCapacity_eq, h.gather_eq]

theorem SameInputs.lebWrite_eq (x : Word) : lebWrite x u = lebWrite x s := by
  simp only [lebWrite, h.checkCapacity_eq]

theorem SameInputs.lebReadFrom_eq (fuel i : Nat) (x : Word) : lebReadFrom u fuel i x = lebReadFrom s fuel i x := by
  induction fuel generalizing i x with
  | zero => rfl
  | succ fuel ih => simp only [lebReadFrom, h.checkCapacity_eq, h.off, h.byteAt, ih]

theorem SameInputs.vluWrite_eq (x : Word) : vluWrite x u = vluWrite x s := by
  simp only [vluWrite, h.mwWrite_eq]

theorem SameInputs.vluRead_eq : vluRead u = vluRead s := by
  simp only [vluRead, h.checkCapacity_eq, h.off, h.byteAt, h.vluTail_eq]

/-- Both commits, of the same staged values or error, leave the same. -/
theorem SameInputs.finish_sameOutcome {r r' : Except ErrorKind Staged} (hr : r' = r) :
    ∃ t v, finish r s = .next t ∧ finish r' u = .next v ∧ SameOutcome t v := by
  subst hr
  cases r' with
  | ok g =>
    refine ⟨_, _, rfl, rfl, rfl, rfl, rfl, rfl, rfl, ?_, fun o => ?_⟩
    · rw [successCommit_off, successCommit_off, h.off]
    · simp only [successCommit_byteAt, h.off, h.byteAt]
  | error e => exact ⟨_, _, rfl, rfl, rfl, rfl, rfl, rfl, rfl, h.off, h.byteAt⟩

/-- A command's rule stages the same, or raises the same error, where its inputs agree; so it leaves the same
(60_exceptions.md R208). -/
theorem SameInputs.exec_sameOutcome (i : Instr) : ∃ t v, exec i s = .next t ∧ exec i u = .next v ∧ SameOutcome t v := by
  cases i with
  | fdec64 | fdec32 | mlenu | mlens => exact h.finish_sameOutcome (r := .ok _) (r' := .ok _) (by rw [h.a])
  | frec64 | frec32 => exact h.finish_sameOutcome (by rw [h.a, h.b, h.c])
  | leblen | vlulen => exact h.finish_sameOutcome (by rw [h.a])
  | wrbe _ | wrle _ | wrbemu | wrbems | wrlemu | wrlems => exact h.finish_sameOutcome (by rw [h.a, h.mwWrite_eq])
  | rdbeu _ | rdbes _ | rdleu _ | rdles _ => exact h.finish_sameOutcome (h.mwRead_eq _ _ _)
  | lebwr => exact h.finish_sameOutcome (by rw [h.a, h.lebWrite_eq])
  | lebrd => exact h.finish_sameOutcome (h.lebReadFrom_eq 8 0 0)
  | vluwr => exact h.finish_sameOutcome (by rw [h.a, h.vluWrite_eq])
  | vlurd => exact h.finish_sameOutcome h.vluRead_eq

end SameInputs

/-- Settles O21: each rule reads nothing but its inputs (`SameInputs.exec_sameOutcome`). -/
theorem outcomeDependsOnlyOnOperandsAndCursor : Obligations.OutcomeDependsOnlyOnOperandsAndCursor := by
  unfold Obligations.OutcomeDependsOnlyOnOperandsAndCursor
  intro i s u ha hb hc hoff hcap hbyte
  have hin : SameInputs s u := ⟨ha, hb, hc, hoff, hcap, hbyte⟩
  obtain ⟨t, v, ht, hv, hout⟩ := hin.exec_sameOutcome i
  exact ⟨t, v, ht, hv, hout.r0, hout.r1, hout.r2, hout.r3, hout.st, hout.off, hout.byteAt⟩

end Sys2Proof.Machine
end

section
/-!
Reset and hazards (70_reset_and_hazards.md): an idle block waits, what reset leaves of the registers and of BUF, and the
fault of a cursor that another agent uses.
-/

namespace Sys2Proof.Machine

/-! ### Waiting -/

/-- With no action pending a step has no effect (70_reset_and_hazards.md R232, log 1). -/
theorem step_of_queue_eq_nil {s : State} (h : s.queue = []) : step s = .next s := by
  simp only [step, h]

/-- Settles O10: a step with an empty queue performs no action. -/
theorem idleBlockWaits : Obligations.IdleBlockWaits := by
  unfold Obligations.IdleBlockWaits
  intro s hqueue
  exact step_of_queue_eq_nil hqueue

/-! ### Reset -/

/-- Settles O12: OFF is 0, whatever CAP is, no byte of BUF is listed, and ST is 0. -/
theorem resetMeetsInvariant : Obligations.ResetMeetsInvariant := by
  unfold Obligations.ResetMeetsInvariant
  have hoff : State.reset.off.toNat ≤ State.reset.cap.toNat := by
    rw [State.reset_off]
    exact Nat.zero_le _
  have hst : StatusLegal State.reset.st := by
    rw [State.reset_st]
    decide
  exact ⟨hoff, rfl, rfl, hst⟩

/-- Every register the host or a command writes, and OFF, hold 0 (70_reset_and_hazards.md R230, R231). -/
structure RegistersZero (t : State) : Prop where
  results : Results t 0 0 0 0
  status : Status t 0 0
  a : t.a = 0
  b : t.b = 0
  c : t.c = 0
  cmd : t.cmd = 0
  off : t.off = 0

/-- A reset of the block clears the registers and OFF, whatever it replies (70_reset_and_hazards.md R230, R231). -/
theorem vnbReset_registersZero (s : State) (r : HostReply) : RegistersZero ((vnbReset s).withReply r) :=
  ⟨⟨rfl, rfl, rfl, rfl⟩, rfl, rfl, rfl, rfl, rfl, rfl⟩

/-- The state after reset is its own reset, with no reply. -/
theorem vnbReset_reset : (vnbReset State.reset).withReply .none = State.reset := rfl

/-- After reset the registers and OFF hold 0 (70_reset_and_hazards.md R230, R231). -/
theorem State.reset_registersZero : RegistersZero State.reset :=
  vnbReset_reset ▸ vnbReset_registersZero State.reset .none

/-- No byte of BUF is written at reset: each reads as its draw (70_reset_and_hazards.md R231). -/
theorem State.reset_byteAt (o : Nat) : State.reset.byteAt o = Config.bufInit o := by
  rw [State.byteAt, State.reset_buf]
  rfl

/-- Settles O58: the same registers are 0 in both states (`vnbReset_registersZero`), and neither CAP nor BUF is among
them. -/
theorem resetZeroesRegistersAndKeepsBuffer : Obligations.ResetZeroesRegistersAndKeepsBuffer := by
  unfold Obligations.ResetZeroesRegistersAndKeepsBuffer
  refine ⟨?_, fun s => ?_⟩
  · obtain ⟨hresults, hst, ha, hb, hc, hcmd, hoff⟩ := State.reset_registersZero
    exact ⟨hresults, hst, ha, hb, hc, hcmd, hoff, State.reset_cap, State.reset_byteAt⟩
  · obtain ⟨hresults, hst, ha, hb, hc, hcmd, hoff⟩ := vnbReset_registersZero s .done
    exact ⟨_, step_withQueue_cons .vnbReset s, hresults, hst, ha, hb, hc, hcmd, hoff, vnbReset_cap s, vnbReset_queue s,
      vnbReset_byteAt s⟩

/-! ### Exclusive access to the cursor -/

/-- Settles O57: the action that stands for the other agent's access has no next state (log 8). -/
theorem contendedCommandFaults : Obligations.ContendedCommandFaults := by
  unfold Obligations.ContendedCommandFaults
  intro s w
  rw [step_withQueue_cons, runAction]

end Sys2Proof.Machine
end
